-- ==== Sys2Proof/Word.lean ====
section
/-!
DEFINITION. The word types of the f23-70p3 core: 32-bit words (R8, decision D2), 3-bit register
fields (R48) and the 16-bit combined field (R49).
-/

namespace Sys2Proof

/-- A machine word: registers, memory cells, latch data and the pc are all 32 bits (R8, D2, D3, D20). -/
abbrev Word := BitVec 32

/-- A register field of an instruction: always a valid register number 0..7 (R48). -/
abbrev RegNum := BitVec 3

/-- The combined field, bits 15:0: a destination index for `add`/`nor`, an offset otherwise (R46). -/
abbrev Imm16 := BitVec 16

end Sys2Proof
end

