-- ==== Sys2Proof/Config.lean ====
section
/-!
DEFINITION. What is fixed for a machine and is not state: the sizes of R6, the two Boolean
parameters of R7, and the one free value.
-/

namespace Sys2Proof.Config

/-- Words in each of the two memories (R6, R19). -/
def memWords : Nat := 65536

/-- General registers (R6, R10). -/
def numRegs : Nat := 8

/-- The two named Boolean parameters of R7. -/
structure Params where
  /-- `SQUASH_EXECUTE`: does a redirect also empty the new execute/memory latch (R89, D14). -/
  squashExecute : Bool
  /-- `LWLW_FAR_DROP`: drop the forwarding of a load to a load three behind (R129, D15). -/
  lwlwFarDrop : Bool
deriving DecidableEq, Repr

/-- The defaults R7 states, both `false`. DESIGN CHOICE of the spec where its source contradicts
itself (D14, D15; log 4, log 5); unsafe for a machine built the other way. -/
def defaultParams : Params := { squashExecute := false, lwlwFarDrop := false }

/-- The operand that a hazard descriptor `(true, SRC_NONE)` selects, as a function of the register
value read in decode. R85 has no such case and R25 (c) says no reachable state holds such a
descriptor, so the value is FREE: no body, nothing can be proved of it (log 9; safe). -/
opaque unsourcedOperand : Word → Word

end Sys2Proof.Config
end

