-- ==== Sys2Proof/Syntax.lean ====
section
/-!
DEFINITION. The instruction set: one constructor per row of spec/opcode_table.json (R52). Ignored
fields of `jalr`, `halt` and `noop` are kept, because the latches carry the whole word (R57).
-/

namespace Sys2Proof

/-- The eight instructions of R52, operands in field order (R59): field A, field B, bits 15:0. -/
inductive Instr where
  /-- `add A B D`: `x[D] <- x[A] + x[B]` (R62). -/
  | add  (a b : RegNum) (d : Imm16)
  /-- `nor A B D`: `x[D] <- ~(x[A] | x[B])` (R63). -/
  | nor  (a b : RegNum) (d : Imm16)
  /-- `lw A B off`: `x[B] <- dataMem[x[A] + sext off]` (R67). -/
  | lw   (a b : RegNum) (off : Imm16)
  /-- `sw A B off`: `dataMem[x[A] + sext off] <- x[B]` (R68). -/
  | sw   (a b : RegNum) (off : Imm16)
  /-- `beq A B off`: branch when `x[A] == x[B]` (R70). -/
  | beq  (a b : RegNum) (off : Imm16)
  /-- `jalr A B`: no effect; all 22 low bits ignored (R71). -/
  | jalr (a b : RegNum) (imm : Imm16)
  /-- `halt`: stop the machine; all 22 low bits ignored (R72). -/
  | halt (a b : RegNum) (imm : Imm16)
  /-- `noop`: no effect; all 22 low bits ignored (R74). -/
  | noop (a b : RegNum) (imm : Imm16)
deriving DecidableEq, Repr

end Sys2Proof
end

