-- ==== Sys2Proof/Decode.lean ====
section
/-!
DEFINITION. The instruction codec (R46 to R55, R61): the five decoder functions, the decoder, the
encoder and the host's entry to the decoder. The decoder is total: a word whose opcode field is
above 7 is rejected by name, and the machine then carries it as a no-op (R55, R75).
-/

namespace Sys2Proof

/-- R47: `opcode(w) = w[31:22]`, ten bits, unmasked (D1). -/
def opcode (w : Word) : BitVec 10 := w.extractLsb' 22 10

/-- R48: `fieldA(w) = w[21:19]`. -/
def fieldA (w : Word) : RegNum := w.extractLsb' 19 3

/-- R48: `fieldB(w) = w[18:16]`. -/
def fieldB (w : Word) : RegNum := w.extractLsb' 16 3

/-- R49: `fieldImm(w) = w[15:0]`, raw and unsigned. -/
def fieldImm (w : Word) : Imm16 := w.extractLsb' 0 16

/-- R50: `sext_16`, two's-complement widening of the combined field to a word; not scaled. -/
def sext16 (v : Imm16) : Word := v.signExtend 32

/-- Why a word is none of the eight instructions. Such a word is legal and runs as a no-op (R55). -/
inductive Rejection where
  /-- The opcode field is above 7 (R47, R55). -/
  | unrecognisedOpcode (op : BitVec 10)
deriving DecidableEq, Repr

/-- R52: the opcode map. -/
def decode (w : Word) : Except Rejection Instr :=
  match (opcode w).toNat with
  | 0 => .ok (.add  (fieldA w) (fieldB w) (fieldImm w))
  | 1 => .ok (.nor  (fieldA w) (fieldB w) (fieldImm w))
  | 2 => .ok (.lw   (fieldA w) (fieldB w) (fieldImm w))
  | 3 => .ok (.sw   (fieldA w) (fieldB w) (fieldImm w))
  | 4 => .ok (.beq  (fieldA w) (fieldB w) (fieldImm w))
  | 5 => .ok (.jalr (fieldA w) (fieldB w) (fieldImm w))
  | 6 => .ok (.halt (fieldA w) (fieldB w) (fieldImm w))
  | 7 => .ok (.noop (fieldA w) (fieldB w) (fieldImm w))
  | _ => .error (.unrecognisedOpcode (opcode w))

/-- The word with these four fields, high to low (R46, R59). -/
def packFields (op : BitVec 10) (a b : RegNum) (imm : Imm16) : Word := op ++ a ++ b ++ imm

/-- R52, R59: the word of an instruction. -/
def encode : Instr → Word
  | .add a b d    => packFields 0 a b d
  | .nor a b d    => packFields 1 a b d
  | .lw a b off   => packFields 2 a b off
  | .sw a b off   => packFields 3 a b off
  | .beq a b off  => packFields 4 a b off
  | .jalr a b imm => packFields 5 a b imm
  | .halt a b imm => packFields 6 a b imm
  | .noop a b imm => packFields 7 a b imm

/-- R53: `NOOP = 0x01C00000`, the word the hardware writes into an empty or squashed latch. -/
def noopWord : Word := 0x01C00000#32

/-- R53: the canonical `halt`. -/
def haltWord : Word := 0x01800000#32

/-- The host's entry to the decoder: an instruction is one 32-bit word (R46, R58), numbered as the
table numbers its bits, so the number `w` of `nbits` bits is that word with zeros above. -/
def decodeTableWord (nbits w : Nat) : Option Instr :=
  if nbits ≤ 32 then
    match decode (BitVec.ofNat 32 (w % 2 ^ nbits)) with
    | .ok i => some i
    | .error _ => none
  else none

end Sys2Proof
end

