-- ==== Sys2Proof/Machine/State.lean ====
section
/-!
DEFINITION. The state of the core (10_state.md): pc, eight registers, cycle counter, two memories,
program length and five pipeline latches; the kinds of FAULT stop (R101); and the state after reset.
-/

namespace Sys2Proof.Machine

open Sys2Proof

/-- The hazard source tag, an abstract four-valued enumeration (10_state.md section 5, D19). -/
inductive HazSrc where
  /-- `SRC_NONE` -/
  | none
  /-- `SRC_EX`: the execute-stage result, `EXMEM.aluResult` in the consumer's execute cycle. -/
  | ex
  /-- `SRC_MEM`: the memory-stage result, `MEMWB.writeData` in the consumer's execute cycle. -/
  | mem
  /-- `SRC_WB`: the committed value, `WBEND.writeData` in the consumer's execute cycle. -/
  | wb
deriving DecidableEq, Repr

/-- A hazard descriptor: the pair `(present, src)` (10_state.md section 5, D19). -/
structure Haz where
  present : Bool
  src     : HazSrc
deriving DecidableEq, Repr

/-- `(false, SRC_NONE)`: the operand comes from the register file. -/
def Haz.clear : Haz := { present := false, src := .none }

/-- The fetch/decode latch IFID (R21). -/
structure IfIdLatch where
  instr   : Word
  pcPlus1 : Word
deriving DecidableEq, Repr

/-- The decode/execute latch IDEX (R22). -/
structure IdExLatch where
  instr    : Word
  pcPlus1  : Word
  readRegA : Word
  readRegB : Word
  offset   : Word
  hazA     : Haz
  hazB     : Haz
deriving DecidableEq, Repr

/-- The execute/memory latch EXMEM (R22). -/
structure ExMemLatch where
  instr        : Word
  branchTarget : Word
  branchTaken  : Bool
  aluResult    : Word
  readRegB     : Word
  hazA         : Haz
  hazB         : Haz
deriving DecidableEq, Repr

/-- The memory/writeback latch MEMWB (R23). -/
structure MemWbLatch where
  instr     : Word
  writeData : Word
  hazA      : Haz
  hazB      : Haz
deriving DecidableEq, Repr

/-- The writeback/retire latch WBEND, which only lengthens the forwarding window (R23, R24). -/
structure WbEndLatch where
  instr     : Word
  writeData : Word
  hazA      : Haz
  hazB      : Haz
deriving DecidableEq, Repr

/-- `EMPTY_IFID` (R26). -/
def IfIdLatch.empty : IfIdLatch := { instr := noopWord, pcPlus1 := 0 }

/-- `EMPTY_IDEX` (R26). -/
def IdExLatch.empty : IdExLatch :=
  { instr := noopWord, pcPlus1 := 0, readRegA := 0, readRegB := 0, offset := 0,
    hazA := .clear, hazB := .clear }

/-- `EMPTY_EXMEM` (R26). -/
def ExMemLatch.empty : ExMemLatch :=
  { instr := noopWord, branchTarget := 0, branchTaken := false, aluResult := 0, readRegB := 0,
    hazA := .clear, hazB := .clear }

/-- `EMPTY_MEMWB` (R26). -/
def MemWbLatch.empty : MemWbLatch :=
  { instr := noopWord, writeData := 0, hazA := .clear, hazB := .clear }

/-- `EMPTY_WBEND` (R26). -/
def WbEndLatch.empty : WbEndLatch :=
  { instr := noopWord, writeData := 0, hazA := .clear, hazB := .clear }

/-- A word-addressed memory of 65536 words (R19, R30): (address, word) pairs, addresses strictly
rising, none equal to what an unlisted address reads as. The unit is the word: the machine has no
bytes and no byte order (R32; log 6). -/
structure Memory where
  cells : List (Nat × Word)
deriving DecidableEq, Repr

/-- The whole state of the core (10_state.md R10 to R24). -/
structure State where
  /-- R13: index of the next instruction word to fetch. -/
  pc       : Word
  /-- R10: `reg[0]` to `reg[7]`; none is hard-wired (R11). -/
  reg      : Vector Word 8
  /-- R18: the cycle counter, unbounded (D4). -/
  cycles   : Nat
  /-- R19: instruction memory, read-only after load. -/
  instrMem : Memory
  /-- R19: data memory. -/
  dataMem  : Memory
  /-- R20: number of words of the loaded image; read by no rule. -/
  progLen  : Nat
  /-- R21 -/
  ifid     : IfIdLatch
  /-- R22 -/
  idex     : IdExLatch
  /-- R22 -/
  exmem    : ExMemLatch
  /-- R23 -/
  memwb    : MemWbLatch
  /-- R23, R24 -/
  wbend    : WbEndLatch
deriving DecidableEq, Repr

/-- The three kinds of FAULT stop (R101, R103), each with the value it reports. Each is raised where
the source leaves the behaviour undefined, so stopping is safe: the model claims nothing there. -/
inductive Fault where
  /-- Raised by `lw` and `sw` in the memory stage when the address is above 65535 (R34). Safe. -/
  | dataAddressOutOfRange (a : Word)
  /-- Raised by a fetch (a cycle that is neither stall nor redirect) with pc above 65535 (R35). Safe. -/
  | fetchAddressOutOfRange (pc : Word)
  /-- Raised by `add` and `nor` in writeback when the destination index is above 7 (R56, R90). Safe. -/
  | destinationOutOfRange (d : Imm16)
deriving DecidableEq, Repr

/-- The machine refuses nothing: every word runs (R51, R55, R100). -/
inductive Refusal where
  /-- Raised by no arm of `exec` and by no step; the host's form asks for the name. Safe. -/
  | notModelled (mnemonic : String)
deriving DecidableEq, Repr

/-- R28: the reset state of the empty program image, a legal reset state (D27). A program is put in
from outside the machine (R120; `State.load`; log 8). -/
def State.reset : State :=
  { pc := 0
    reg := Vector.replicate 8 0
    cycles := 0
    instrMem := { cells := [] }
    dataMem := { cells := [] }
    progLen := 0
    ifid := .empty
    idex := .empty
    exmem := .empty
    memwb := .empty
    wbend := .empty }

end Sys2Proof.Machine
end

