-- ==== Sys2Proof/Machine/Flags.lean ====
section
/-!
DEFINITION. The ALU results and the one condition of the machine. There are no status flags, carry,
overflow or condition codes (R16, R62, R64): the only condition is the equality `beq` computes.
-/

namespace Sys2Proof.Machine

open Sys2Proof

/-- R62, R64: the sum of two words modulo 2^32. -/
def aluAdd (a b : Word) : Word := a + b

/-- R63: the bitwise NOR of two words. -/
def aluNor (a b : Word) : Word := ~~~(a ||| b)

/-- R70, R87: the branch condition, equality of all 32 bits (D21). -/
def branchEqual (a b : Word) : Bool := a == b

end Sys2Proof.Machine
end

