-- ==== Sys2Proof/Machine/Ops.lean ====
section
/-!
DEFINITION. The named operations over memory, registers and pc (R9, R34, R35, R90). The hardware has
no exception mechanism, so there is no exception entry and no return (R100, R105, R106): the FAULT
stop of R103 is the error of these operations, and whoever gets one commits nothing.
-/

namespace Sys2Proof.Machine

open Sys2Proof

/-- What a word that no cell lists reads as: 0, the content beyond the loaded image (R28, R36). -/
def Memory.unlisted : Word := 0

/-- The value listed for address `a`, `Memory.unlisted` if there is none. -/
def Memory.find : List (Nat × Word) → Nat → Word
  | [], _ => Memory.unlisted
  | (k, x) :: rest, a => if k = a then x else Memory.find rest a

/-- List `v` for address `a`, keeping the addresses rising. -/
def Memory.insert : List (Nat × Word) → Nat → Word → List (Nat × Word)
  | [], a, v => [(a, v)]
  | (k, x) :: rest, a, v =>
    if k < a then (k, x) :: Memory.insert rest a v
    else if k = a then (a, v) :: rest
    else (a, v) :: (k, x) :: rest

/-- The word at address `a` (R37: reads have no side effect). -/
def Memory.read (m : Memory) (a : Nat) : Word := Memory.find m.cells a

/-- Store the word `v` at address `a`; the value of an unlisted word removes the entry, so that equal
memories are equal data. -/
def Memory.write (m : Memory) (a : Nat) (v : Word) : Memory :=
  if v = Memory.unlisted then { cells := m.cells.filter (fun c => c.1 != a) }
  else { cells := Memory.insert m.cells a v }

/-- The canonical form: addresses strictly rising and inside the memory, no listed default. -/
abbrev Memory.wf (m : Memory) : Prop :=
  m.cells.Pairwise (fun x y => x.1 < y.1) ∧
    ∀ c ∈ m.cells, c.1 < Config.memWords ∧ c.2 ≠ Memory.unlisted

/-- R34, R35: an address is inside a memory when it is 0..65535, read as an unsigned number. -/
def inRange (a : Word) : Bool := decide (a.toNat < Config.memWords)

/-- R34: `MemRead(a, 1)`. Outside the memory it is a FAULT, never wrapped, masked or clamped. -/
def memRead (m : Memory) (a : Word) : Except Fault Word :=
  if inRange a then .ok (m.read a.toNat) else .error (.dataAddressOutOfRange a)

/-- R34: `MemWrite(a, 1, v)`, all 32 bits of `v`; the same range check. -/
def memWrite (m : Memory) (a v : Word) : Except Fault Memory :=
  if inRange a then .ok (m.write a.toNat v) else .error (.dataAddressOutOfRange a)

/-- R35: `IFetch(a)`. -/
def iFetch (m : Memory) (a : Word) : Except Fault Word :=
  if inRange a then .ok (m.read a.toNat) else .error (.fetchAddressOutOfRange a)

/-- R9: `x[r]`, the read of a general register; register 0 is as any other (R11). -/
def readReg (regs : Vector Word 8) (r : RegNum) : Word := regs[r.toNat]'r.isLt

/-- R90: `x[d] <- v` through a whole 16-bit destination index; an index above 7 is a FAULT and is
never masked to 3 bits (R56). Register 0 is written as any other (R11). -/
def writeReg (regs : Vector Word 8) (d : Imm16) (v : Word) : Except Fault (Vector Word 8) :=
  if h : d.toNat < 8 then .ok (regs.set d.toNat v h) else .error (.destinationOutOfRange d)

/-- R15: the next pc in program order, modulo 2^32. -/
def nextPc (pc : Word) : Word := pc + 1

/-- The program-order completion of an instruction that only advances the pc (R71, R74). -/
def advance (s : State) : Host.Outcome State Fault Refusal :=
  .next { s with pc := nextPc s.pc }

/-- The program-order completion of an instruction that writes register index `d` and advances the
pc (R62, R63, R67). -/
def completeReg (s : State) (d : Imm16) (v : Word) : Host.Outcome State Fault Refusal :=
  match writeReg s.reg d v with
  | .ok regs => .next { s with reg := regs, pc := nextPc s.pc }
  | .error f => .fault f

/-- The program-order completion of an instruction that stores word `v` at address `a` and advances
the pc (R68). -/
def completeStore (s : State) (a v : Word) : Host.Outcome State Fault Refusal :=
  match memWrite s.dataMem a v with
  | .ok m => .next { s with dataMem := m, pc := nextPc s.pc }
  | .error f => .fault f

end Sys2Proof.Machine
end

