-- ==== Sys2Proof/Machine/Operands.lean ====
section
/-!
DEFINITION. Operand assembly: the address and target sums (R66, R70), the destination of an
instruction (R61), the source operands it needs (R126) and the forwarding multiplexer (R85).
-/

namespace Sys2Proof.Machine

open Sys2Proof

/-- R66: `ea = A + sext_16(off)` modulo 2^32, from the base and the widened offset. -/
def effectiveAddress (base offset : Word) : Word := base + offset

/-- R70, R87: `target = pcPlus1 + sext_16(off)` modulo 2^32. -/
def branchTargetOf (pcPlus1 offset : Word) : Word := pcPlus1 + offset

/-- A register number as a whole destination index (R61). -/
def regIndex (r : RegNum) : Imm16 := r.setWidth 16

/-- R61: `dest`, the register index an instruction writes; the whole 16-bit field for `add`/`nor`. -/
def instrDest : Instr → Option Imm16
  | .add _ _ d  => some d
  | .nor _ _ d  => some d
  | .lw _ b _   => some (regIndex b)
  | .sw _ _ _   => none
  | .beq _ _ _  => none
  | .jalr _ _ _ => none
  | .halt _ _ _ => none
  | .noop _ _ _ => none

/-- R126: does an instruction need operand A? -/
def instrNeedsA : Instr → Bool
  | .add _ _ _  => true
  | .nor _ _ _  => true
  | .lw _ _ _   => true
  | .sw _ _ _   => true
  | .beq _ _ _  => true
  | .jalr _ _ _ => false
  | .halt _ _ _ => false
  | .noop _ _ _ => false

/-- R126: does an instruction need operand B? The register-B field of `lw` is its destination. -/
def instrNeedsB : Instr → Bool
  | .add _ _ _  => true
  | .nor _ _ _  => true
  | .lw _ _ _   => false
  | .sw _ _ _   => true
  | .beq _ _ _  => true
  | .jalr _ _ _ => false
  | .halt _ _ _ => false
  | .noop _ _ _ => false

/-- R61 on words: an unrecognised word writes no register. -/
def destOf (w : Word) : Option Imm16 :=
  match decode w with
  | .ok i => instrDest i
  | .error _ => none

/-- R126 on words: an unrecognised word needs no operand. -/
def needsA (w : Word) : Bool :=
  match decode w with
  | .ok i => instrNeedsA i
  | .error _ => false

/-- R126 on words. -/
def needsB (w : Word) : Bool :=
  match decode w with
  | .ok i => instrNeedsB i
  | .error _ => false

/-- R85: the forwarding multiplexer `Operand(h, v)`, over the three later latches of `s`. The last
arm is no case of R85 and no reachable descriptor (R25 c): a free value (log 9). -/
def operand (s : State) (h : Haz) (v : Word) : Word :=
  if h.present then
    match h.src with
    | .ex => s.exmem.aluResult
    | .mem => s.memwb.writeData
    | .wb => s.wbend.writeData
    | .none => Config.unsourcedOperand v
  else v

/-- R85: operand A of the instruction in execute. -/
def operandA (s : State) : Word := operand s s.idex.hazA s.idex.readRegA

/-- R85: operand B of the instruction in execute. -/
def operandB (s : State) : Word := operand s s.idex.hazB s.idex.readRegB

end Sys2Proof.Machine
end

