-- ==== Sys2Proof/Machine/Arith.lean ====
section
/-!
DEFINITION. The arithmetic and logic instructions (40_arith.md): their program-order effect, the
"architectural effect" line of R62 and R63.
-/

namespace Sys2Proof.Machine

open Sys2Proof

/-- R62: `x[D] <- x[A] + x[B]`; pc + 1; a destination index above 7 is a FAULT (R56). -/
def execAdd (a b : RegNum) (d : Imm16) (s : State) : Host.Outcome State Fault Refusal :=
  completeReg s d (aluAdd (readReg s.reg a) (readReg s.reg b))

/-- R63: `x[D] <- ~(x[A] | x[B])`; pc + 1; a destination index above 7 is a FAULT (R56). -/
def execNor (a b : RegNum) (d : Imm16) (s : State) : Host.Outcome State Fault Refusal :=
  completeReg s d (aluNor (readReg s.reg a) (readReg s.reg b))

end Sys2Proof.Machine
end

