-- ==== Sys2Proof/Machine/Control.lean ====
section
/-!
DEFINITION. The control transfer instructions (42_control.md): their program-order effect. The two
squashed fetch slots and the instruction at b + 1 belong to the cycle (R135, R136), not to the
branch's own effect; `Machine/ProgramOrder.lean` says how they read in program order (R138).
-/

namespace Sys2Proof.Machine

open Sys2Proof

/-- R70: if `x[A] == x[B]` on all 32 bits, control goes to the address of the branch + 1 +
sext_16(off) modulo 2^32, else to the next address; nothing else changes. -/
def execBeq (a b : RegNum) (off : Imm16) (s : State) : Host.Outcome State Fault Refusal :=
  if branchEqual (readReg s.reg a) (readReg s.reg b) then
    .next { s with pc := branchTargetOf (nextPc s.pc) (sext16 off) }
  else advance s

/-- R71: no effect, it neither jumps nor links; pc + 1. Its fields are ignored. -/
def execJalr (_ _ : RegNum) (_ : Imm16) (s : State) : Host.Outcome State Fault Refusal :=
  advance s

end Sys2Proof.Machine
end

