-- ==== Sys2Proof/Machine/LoadStore.lean ====
section
/-!
DEFINITION. The load and store instructions (41_loadstore.md): their program-order effect, the
"architectural effect" line of R67 and R68.
-/

namespace Sys2Proof.Machine

open Sys2Proof

/-- R67: `x[B] <- dataMem[x[A] + sext_16(off)]`; pc + 1; an address above 65535 is a FAULT (R34). -/
def execLw (a b : RegNum) (off : Imm16) (s : State) : Host.Outcome State Fault Refusal :=
  match memRead s.dataMem (effectiveAddress (readReg s.reg a) (sext16 off)) with
  | .ok v => completeReg s (regIndex b) v
  | .error f => .fault f

/-- R68: `dataMem[x[A] + sext_16(off)] <- x[B]`; pc + 1; an address above 65535 is a FAULT (R34). -/
def execSw (a b : RegNum) (off : Imm16) (s : State) : Host.Outcome State Fault Refusal :=
  completeStore s (effectiveAddress (readReg s.reg a) (sext16 off)) (readReg s.reg b)

end Sys2Proof.Machine
end

