-- ==== Sys2Proof/Machine/System.lean ====
section
/-!
DEFINITION. `halt` and `noop` (43_system.md): their program-order effect.
-/

namespace Sys2Proof.Machine

open Sys2Proof

/-- R72: the machine enters the halted condition, which is the state in which the `halt` word stands
in MEMWB (R81). The ignored bits stand in the latch with it (R57). Nothing else changes (log 1). -/
def execHalt (a b : RegNum) (imm : Imm16) (s : State) : Host.Outcome State Fault Refusal :=
  .next { s with memwb := { MemWbLatch.empty with instr := encode (.halt a b imm) } }

/-- R74: no effect; pc + 1. Its fields are ignored. -/
def execNoop (_ _ : RegNum) (_ : Imm16) (s : State) : Host.Outcome State Fault Refusal :=
  advance s

end Sys2Proof.Machine
end

