-- ==== Sys2Proof/Machine/Dispatch.lean ====
section
/-!
DEFINITION. The program-order effect of every instruction of spec/opcode_table.json, one arm each.
-/

namespace Sys2Proof.Machine

open Sys2Proof

def exec (i : Instr) (s : State) : Host.Outcome State Fault Refusal :=
  match i with
  | .add a b d => Sys2Proof.Machine.execAdd a b d s
  | .nor a b d => Sys2Proof.Machine.execNor a b d s
  | .lw a b off => Sys2Proof.Machine.execLw a b off s
  | .sw a b off => Sys2Proof.Machine.execSw a b off s
  | .beq a b off => Sys2Proof.Machine.execBeq a b off s
  | .jalr a b imm => Sys2Proof.Machine.execJalr a b imm s
  | .halt a b imm => Sys2Proof.Machine.execHalt a b imm s
  | .noop a b imm => Sys2Proof.Machine.execNoop a b imm s

end Sys2Proof.Machine
end

