-- ==== Sys2Proof/Machine/Hazards.lean ====
section
/-!
DEFINITION. The hazard resolver and the two front-end conditions: the window (R125), the scan (R128,
R129), the descriptors (R127), load-use and stall (R131), redirect (R134).
-/

namespace Sys2Proof.Machine

open Sys2Proof Sys2Proof.Config

/-- What one scan finds (R128). -/
inductive ScanResult where
  /-- `(false, SRC_NONE)`: no producer in the window. -/
  | none
  /-- `(true, src)`: forward from there. -/
  | forward (src : HazSrc)
  /-- `LOAD_USE`: the nearest entry is the load that produces the operand. -/
  | loadUse
deriving DecidableEq, Repr

/-- R125: the window, nearest first, each entry with its tag. It is no state of its own (D12). -/
def window (s : State) : List (Word × HazSrc) :=
  [(s.idex.instr, .ex), (s.exmem.instr, .mem), (s.memwb.instr, .wb)]

/-- Is the consumer a load (R129)? -/
def isLoad (w : Word) : Bool :=
  match decode w with
  | .ok (.lw _ _ _) => true
  | _ => false

/-- R128: one entry against the needed register `r` of the consumer `w`; `ScanResult.none` means
"continue with the next entry". -/
def scanEntry (p : Params) (w : Word) (r : RegNum) (entry : Word) (tag : HazSrc) : ScanResult :=
  match decode entry with
  | .ok (.add _ _ d) => if d = regIndex r then .forward tag else .none
  | .ok (.nor _ _ d) => if d = regIndex r then .forward tag else .none
  | .ok (.lw _ b _) =>
    if regIndex b = regIndex r then
      if tag = .ex then .loadUse
      else if tag = .wb ∧ isLoad w = true ∧ p.lwlwFarDrop = true then .none
      else .forward tag
    else .none
  | .ok (.sw _ _ _) => .none
  | .ok (.beq _ _ _) => .none
  | .ok (.jalr _ _ _) => .none
  | .ok (.halt _ _ _) => .none
  | .ok (.noop _ _ _) => .none
  | .error _ => .none

/-- R128: front to back with early exit; the first entry that answers decides. -/
def scanList (p : Params) (w : Word) (r : RegNum) : List (Word × HazSrc) → ScanResult
  | [] => .none
  | (entry, tag) :: rest =>
    match scanEntry p w r entry tag with
    | .none => scanList p w r rest
    | .forward src => .forward src
    | .loadUse => .loadUse

/-- R128: `Scan(S, r, w)`. -/
def scan (p : Params) (s : State) (r : RegNum) (w : Word) : ScanResult :=
  scanList p w r (window s)

/-- The descriptor a scan leaves in IDEX (R127). `LOAD_USE` is never written to a latch: its cycle is
a stall or a redirect, and IDEX is emptied. -/
def descriptorOf : ScanResult → Haz
  | .none => .clear
  | .forward src => { present := true, src := src }
  | .loadUse => .clear

/-- R127: the descriptor of operand A of the instruction being decoded. -/
def descriptorA (p : Params) (s : State) (w : Word) : Haz :=
  if needsA w then descriptorOf (scan p s (fieldA w) w) else .clear

/-- R127: the descriptor of operand B of the instruction being decoded. -/
def descriptorB (p : Params) (s : State) (w : Word) : Haz :=
  if needsB w then descriptorOf (scan p s (fieldB w) w) else .clear

/-- R131: `LoadUse(S)`, for the instruction in IFID. -/
def loadUse (p : Params) (s : State) : Bool :=
  (needsA s.ifid.instr && scan p s (fieldA s.ifid.instr) s.ifid.instr == .loadUse) ||
  (needsB s.ifid.instr && scan p s (fieldB s.ifid.instr) s.ifid.instr == .loadUse)

/-- R134: `Redirect(S)`: a taken `beq` stands in EXMEM; both tests are made (D25). -/
def redirect (s : State) : Bool :=
  opcode s.exmem.instr == 4#10 && s.exmem.branchTaken

/-- R131, R137: `Stall(S)`; a redirect has priority (D13). -/
def stall (p : Params) (s : State) : Bool := loadUse p s && !redirect s

end Sys2Proof.Machine
end

