-- ==== Sys2Proof/Machine/Pipeline.lean ====
section
/-!
DEFINITION. One clock cycle (45_pipeline_cycle.md): the five stages, each a function of the old state
alone (R80), and their assembly with the order of faults (R93, R94). The two parameters of R7 are the
argument `p`.
-/

namespace Sys2Proof.Machine

open Sys2Proof Sys2Proof.Config

/-- R81: the halted test, on the whole opcode field of MEMWB. -/
def State.halted (s : State) : Bool := opcode s.memwb.instr == 6#10

/-! ### Execute -/

/-- R86: the ALU result of an instruction, from its two operands and its widened offset. -/
def instrAlu (i : Instr) (a b off : Word) : Word :=
  match i with
  | .add _ _ _  => aluAdd a b
  | .nor _ _ _  => aluNor a b
  | .lw _ _ _   => effectiveAddress a off
  | .sw _ _ _   => effectiveAddress a off
  | .beq _ _ _  => 0
  | .jalr _ _ _ => 0
  | .halt _ _ _ => 0
  | .noop _ _ _ => 0

/-- R86 on words: an unrecognised word computes nothing. -/
def aluResultOf (w a b off : Word) : Word :=
  match decode w with
  | .ok i => instrAlu i a b off
  | .error _ => 0

/-- R87: `BranchUnit`, the outcome and the target; 0 for everything but `beq`. -/
def branchUnit (w a b pcPlus1 off : Word) : Bool × Word :=
  match decode w with
  | .ok (.beq _ _ _)  => (branchEqual a b, branchTargetOf pcPlus1 off)
  | .ok (.add _ _ _)  => (false, 0)
  | .ok (.nor _ _ _)  => (false, 0)
  | .ok (.lw _ _ _)   => (false, 0)
  | .ok (.sw _ _ _)   => (false, 0)
  | .ok (.jalr _ _ _) => (false, 0)
  | .ok (.halt _ _ _) => (false, 0)
  | .ok (.noop _ _ _) => (false, 0)
  | .error _          => (false, 0)

/-- R86, R87: `Execute(S)`, the next EXMEM. -/
def executeStage (s : State) : ExMemLatch :=
  let a := operandA s
  let b := operandB s
  let br := branchUnit s.idex.instr a b s.idex.pcPlus1 s.idex.offset
  { instr := s.idex.instr
    branchTarget := br.2
    branchTaken := br.1
    aluResult := aluResultOf s.idex.instr a b s.idex.offset
    readRegB := b
    hazA := s.idex.hazA
    hazB := s.idex.hazB }

/-- R89, R94: the next EXMEM; emptied in a redirect cycle under `SQUASH_EXECUTE` only. -/
def nextExMem (p : Params) (s : State) : ExMemLatch :=
  if redirect s && p.squashExecute then .empty else executeStage s

/-! ### Memory -/

/-- R88: the writeback value and the data memory an instruction leaves, from the address `a` and the
value `v` to store. -/
def instrMemory (i : Instr) (m : Memory) (a v : Word) : Except Fault (Word × Memory) :=
  match i with
  | .add _ _ _  => .ok (a, m)
  | .nor _ _ _  => .ok (a, m)
  | .lw _ _ _   => (memRead m a).map (fun x => (x, m))
  | .sw _ _ _   => (memWrite m a v).map (fun m' => (0, m'))
  | .beq _ _ _  => .ok (0, m)
  | .jalr _ _ _ => .ok (0, m)
  | .halt _ _ _ => .ok (0, m)
  | .noop _ _ _ => .ok (0, m)

/-- R88 on words: an unrecognised word accesses nothing. -/
def memoryOf (w : Word) (m : Memory) (a v : Word) : Except Fault (Word × Memory) :=
  match decode w with
  | .ok i => instrMemory i m a v
  | .error _ => .ok (0, m)

/-- R88: `Memory(S)`, the next MEMWB and the next data memory. -/
def memoryStage (s : State) : Except Fault (MemWbLatch × Memory) :=
  (memoryOf s.exmem.instr s.dataMem s.exmem.aluResult s.exmem.readRegB).map fun r =>
    ({ instr := s.exmem.instr, writeData := r.1, hazA := s.exmem.hazA, hazB := s.exmem.hazB }, r.2)

/-! ### Writeback -/

/-- R90, R61: the register file after the word `w` commits the value `v`. -/
def writebackOf (w : Word) (regs : Vector Word 8) (v : Word) : Except Fault (Vector Word 8) :=
  match destOf w with
  | some d => writeReg regs d v
  | none => .ok regs

/-- R90: the next register file. -/
def writebackStage (s : State) : Except Fault (Vector Word 8) :=
  writebackOf s.memwb.instr s.reg s.memwb.writeData

/-- R90: the next WBEND, a copy of MEMWB. -/
def nextWbEnd (s : State) : WbEndLatch :=
  { instr := s.memwb.instr, writeData := s.memwb.writeData,
    hazA := s.memwb.hazA, hazB := s.memwb.hazB }

/-! ### Front end -/

/-- R83: `Decode(S)`, normal case; the reads and the widening are made for every word. -/
def decodeStage (p : Params) (s : State) : IdExLatch :=
  { instr := s.ifid.instr
    pcPlus1 := s.ifid.pcPlus1
    readRegA := readReg s.reg (fieldA s.ifid.instr)
    readRegB := readReg s.reg (fieldB s.ifid.instr)
    offset := sext16 (fieldImm s.ifid.instr)
    hazA := descriptorA p s s.ifid.instr
    hazB := descriptorB p s s.ifid.instr }

/-- What the front end writes: the next pc, IFID and IDEX. -/
structure FrontEnd where
  pc   : Word
  ifid : IfIdLatch
  idex : IdExLatch
deriving DecidableEq, Repr

/-- R82: the three cases, redirect (R135) before stall (R132) before the normal cycle; instruction
memory is read in the normal case only (D8). -/
def frontEnd (p : Params) (s : State) : Except Fault FrontEnd :=
  if redirect s then
    .ok { pc := s.exmem.branchTarget, ifid := .empty, idex := .empty }
  else if stall p s then
    .ok { pc := s.pc, ifid := s.ifid, idex := .empty }
  else
    (iFetch s.instrMem s.pc).map fun w =>
      { pc := nextPc s.pc
        ifid := { instr := w, pcPlus1 := nextPc s.pc }
        idex := decodeStage p s }

/-! ### The cycle -/

/-- R92: commit, everything built from the old state; the instruction memory and the program length
never change. -/
def commit (p : Params) (s : State) (regs : Vector Word 8) (m : MemWbLatch × Memory)
    (f : FrontEnd) : State :=
  { pc := f.pc
    reg := regs
    cycles := s.cycles + 1
    instrMem := s.instrMem
    dataMem := m.2
    progLen := s.progLen
    ifid := f.ifid
    idex := f.idex
    exmem := nextExMem p s
    memwb := m.1
    wbend := nextWbEnd s }

/-- R94: `Step(S)` under the parameters `p`. The halted test comes first; a halted machine stays as it
is, so `Halted` is the next state `s` itself (R81; log 2). Among the faults of one cycle the oldest
instruction's is reported: writeback, memory, fetch (R93, R104). -/
def cycle (p : Params) (s : State) : Host.Outcome State Fault Refusal :=
  if s.halted then .next s
  else
    match writebackStage s with
    | .error f => .fault f
    | .ok regs =>
      match memoryStage s with
      | .error f => .fault f
      | .ok m =>
        match frontEnd p s with
        | .error f => .fault f
        | .ok fe => .next (commit p s regs m fe)

end Sys2Proof.Machine
end

