-- ==== Sys2Proof/Machine/Step.lean ====
section
/-!
DEFINITION. The step of the machine: one clock cycle (R94) under the default parameters (R7), and the
host's placing of an instruction where the next fetch reads it.
-/

namespace Sys2Proof.Machine

open Sys2Proof

/-- R94, R95: one clock cycle. -/
def step (s : State) : Host.Outcome State Fault Refusal := cycle Config.defaultParams s

/-- The state in which the very next step fetches this one word and carries it alone: the word stands
in the instruction memory at the pc, the pc lies inside that memory (R35), and the four latches with
work left are empty, so that no halt (R81), redirect (R134), stall (R131) or older fault (R93) takes the
cycle of the fetch. In the state after reset only the instruction memory changes. It stands for the
load of R120; the word's later stages are the steps after (R94; log 8). -/
def State.withFetchWord (s : State) (nbits w : Nat) : State :=
  { s with
    pc := BitVec.ofNat 32 (s.pc.toNat % Config.memWords)
    instrMem := s.instrMem.write (s.pc.toNat % Config.memWords) (BitVec.ofNat 32 (w % 2 ^ nbits))
    ifid := .empty
    idex := .empty
    exmem := .empty
    memwb := .empty }

end Sys2Proof.Machine
end

