-- ==== Sys2Proof/Machine/Snapshot.lean ====
section
/-!
DEFINITION. The read-only snapshot the core exposes before every cycle and once more after halt
(R29), with the running/halted indication (R123 d). Taking it changes nothing.
-/

namespace Sys2Proof.Machine

open Sys2Proof

/-- R29: the whole of `S` less the instruction memory and the program length, which R29 leaves to the
printer, and the halted predicate (R123 d). -/
structure Snapshot where
  pc      : Word
  reg     : Vector Word 8
  cycles  : Nat
  dataMem : Memory
  ifid    : IfIdLatch
  idex    : IdExLatch
  exmem   : ExMemLatch
  memwb   : MemWbLatch
  wbend   : WbEndLatch
  halted  : Bool
deriving DecidableEq, Repr

/-- R29: the snapshot of a state. -/
def State.snapshot (s : State) : Snapshot :=
  { pc := s.pc, reg := s.reg, cycles := s.cycles, dataMem := s.dataMem, ifid := s.ifid,
    idex := s.idex, exmem := s.exmem, memwb := s.memwb, wbend := s.wbend, halted := s.halted }

end Sys2Proof.Machine
end

