-- ==== Sys2Proof/Machine/Loader.lean ====
section
/-!
DEFINITION. Reset is the loading of a program (R28, R120, R121): the reset state of an image, and
what the loader refuses (U12, U13).
-/

namespace Sys2Proof.Machine

open Sys2Proof

/-- The cells of an image whose first word stands at `a`, in canonical form. -/
def imageCells : Nat → List Word → List (Nat × Word)
  | _, [] => []
  | a, w :: rest =>
    if w = Memory.unlisted then imageCells (a + 1) rest else (a, w) :: imageCells (a + 1) rest

/-- R28: the memory that holds an image from address 0 and 0 beyond it. -/
def Memory.ofImage (image : List Word) : Memory := { cells := imageCells 0 image }

/-- R28, R120: the reset state of a program image, the same words in both memories. An image longer
than the memories is no reset state of the core (R121, U12). -/
def State.load (image : List Word) : Option State :=
  if image.length ≤ Config.memWords then
    some { State.reset with
      instrMem := Memory.ofImage image
      dataMem := Memory.ofImage image
      progLen := image.length }
  else none

/-- R121, D17: the word of one decimal line; a negative line is its two's complement, a line outside
-2^31 .. 2^32 - 1 is refused (U13). -/
def lineWord (v : Int) : Option Word :=
  if -(2 ^ 31) ≤ v ∧ v < 2 ^ 32 then some (BitVec.ofInt 32 v) else none

/-- R121: the reset state of a list of decimal lines. -/
def State.loadLines (lines : List Int) : Option State :=
  (lines.mapM lineWord).bind State.load

end Sys2Proof.Machine
end

