-- ==== Sys2Proof/Machine/ProgramOrder.lean ====
section
/-!
DEFINITION. The program-order reading of the machine (R96): what a state looks like once the
instructions ahead of the one in execute have completed, and the sequential machine that runs one
instruction at a time with `exec`, with the slot after a taken branch (R138).
-/

namespace Sys2Proof.Machine

open Sys2Proof Sys2Proof.Config

/-- The register file after the word `w` commits `v`; unchanged where the commit would fault. -/
def regsAfter (w : Word) (regs : Vector Word 8) (v : Word) : Vector Word 8 :=
  match writebackOf w regs v with
  | .ok r => r
  | .error _ => regs

/-- The writeback value and data memory after the instruction in EXMEM; 0 and no change where its
access would fault. -/
def memoryAfter (s : State) : Word × Memory :=
  match memoryOf s.exmem.instr s.dataMem s.exmem.aluResult s.exmem.readRegB with
  | .ok r => r
  | .error _ => (0, s.dataMem)

/-- The state as program order sees it from the instruction in IDEX: the instructions in MEMWB and
EXMEM have completed (R96 b). -/
def State.older (s : State) : State :=
  { s with
    reg := regsAfter s.exmem.instr (regsAfter s.memwb.instr s.reg s.memwb.writeData) (memoryAfter s).1
    dataMem := (memoryAfter s).2 }

/-- One word in program order: the instruction's `exec`, or, for an unrecognised word, no effect
(R75). -/
def execWord (w : Word) (s : State) : Host.Outcome State Fault Refusal :=
  match decode w with
  | .ok i => exec i s
  | .error _ => advance s

/-- Is `w` a `beq` that is taken in `s` (R70)? -/
def branchTakenIn (w : Word) (s : State) : Bool :=
  match decode w with
  | .ok (.beq a b _) => branchEqual (readReg s.reg a) (readReg s.reg b)
  | _ => false

/-- A point of the program-order run: the state, and the branch target that still waits for the slot
instruction at the pc, if the last instruction was a taken branch (R138). -/
structure ProgramPoint where
  state : State
  slot  : Option Word
deriving DecidableEq, Repr

/-- Where the program-order run stands after an instruction that left `u` from pc `pc`: a taken
branch outside a slot sends the run through its slot first, unless `SQUASH_EXECUTE` discards the slot
(R136); a slot instruction ends at the waiting target, or at its own target if it is itself a taken
branch, whose own slot is lost (R138). -/
def afterInstr (p : Params) (slot : Option Word) (taken : Bool) (pc : Word) (u : State) :
    ProgramPoint :=
  match slot with
  | none =>
    if taken && !p.squashExecute then { state := { u with pc := nextPc pc }, slot := some u.pc }
    else { state := u, slot := none }
  | some target =>
    if taken then { state := u, slot := none }
    else { state := { u with pc := target }, slot := none }

/-- One instruction in program order (R96). -/
def programStep (p : Params) (q : ProgramPoint) : Host.Outcome ProgramPoint Fault Refusal :=
  if q.state.halted then .next q
  else
    match iFetch q.state.instrMem q.state.pc with
    | .error f => .fault f
    | .ok w =>
      match execWord w q.state with
      | .next u => .next (afterInstr p q.slot (branchTakenIn w q.state) q.state.pc u)
      | .fault f => .fault f
      | .refused r => .refused r

/-- `n` instructions in program order. -/
def programRun (p : Params) : Nat → ProgramPoint → Host.Outcome ProgramPoint Fault Refusal
  | 0, q => .next q
  | n + 1, q =>
    match programStep p q with
    | .next q' => programRun p n q'
    | .fault f => .fault f
    | .refused r => .refused r

/-- `n` clock cycles (R95). -/
def runCycles (p : Params) : Nat → State → Host.Outcome State Fault Refusal
  | 0, s => .next s
  | n + 1, s =>
    match cycle p s with
    | .next t => runCycles p n t
    | .fault f => .fault f
    | .refused r => .refused r

end Sys2Proof.Machine
end

