-- ==== Sys2Proof/Safety.lean ====
section
/-!
DEFINITION. The terms the claims use: the invariants of the latch array (R25, R26), of the memories,
of forwarding (R96 b, R130) and of fetching; which fields of two states matter (R26, R27).
-/

namespace Sys2Proof.Machine

open Sys2Proof Sys2Proof.Config

/-- R25 (c) for one descriptor: absent exactly when the tag is `SRC_NONE`. -/
abbrev Haz.wf (h : Haz) : Prop := h.present = false ↔ h.src = .none

/-- R25 (c): every descriptor of every latch. -/
abbrev State.hazWf (s : State) : Prop :=
  s.idex.hazA.wf ∧ s.idex.hazB.wf ∧ s.exmem.hazA.wf ∧ s.exmem.hazB.wf ∧
  s.memwb.hazA.wf ∧ s.memwb.hazB.wf ∧ s.wbend.hazA.wf ∧ s.wbend.hazB.wf

/-- R25 (d): the branch flag is set for a `beq` only. -/
abbrev State.branchFlagWf (s : State) : Prop :=
  s.exmem.branchTaken = true → opcode s.exmem.instr = 4#10

/-- Both memories are in canonical form. -/
abbrev State.memoriesWf (s : State) : Prop := s.instrMem.wf ∧ s.dataMem.wf

/-- Does the opcode of a word make the ALU result relevant (R27: add, nor, lw, sw)? -/
def usesAlu (w : Word) : Bool := decide ((opcode w).toNat ≤ 3)

/-- Does the opcode of a word make the writeback value relevant (R27: add, nor, lw)? -/
def producesValue (w : Word) : Bool := decide ((opcode w).toNat ≤ 2)

/-- Is the word a `beq` (R27: branch target and flag)? -/
def isBeq (w : Word) : Bool := opcode w == 4#10

/-- R26, R27: every field that the occupant's opcode does not use is 0. -/
abbrev State.irrelevantZero (s : State) : Prop :=
  (needsA s.idex.instr = false → s.idex.hazA = .clear) ∧
  (needsB s.idex.instr = false → s.idex.hazB = .clear) ∧
  (usesAlu s.exmem.instr = false → s.exmem.aluResult = 0) ∧
  (isBeq s.exmem.instr = false → s.exmem.branchTarget = 0 ∧ s.exmem.branchTaken = false) ∧
  (producesValue s.memwb.instr = false → s.memwb.writeData = 0) ∧
  (producesValue s.wbend.instr = false → s.wbend.writeData = 0)

/-- One descriptor of the instruction in execute names a latch whose instruction produces register
`r`, with the value in the field R85 reads (R85, D11). -/
abbrev State.sourced (s : State) (h : Haz) (r : RegNum) : Prop :=
  h.present = true →
    (h.src = .ex ∧ (opcode s.exmem.instr).toNat ≤ 1 ∧ destOf s.exmem.instr = some (regIndex r)) ∨
    (h.src = .mem ∧ destOf s.memwb.instr = some (regIndex r)) ∨
    (h.src = .wb ∧ destOf s.wbend.instr = some (regIndex r))

/-- R85, R128: every descriptor in IDEX points at its producer. -/
abbrev State.hazSourced (s : State) : Prop :=
  s.sourced s.idex.hazA (fieldA s.idex.instr) ∧ s.sourced s.idex.hazB (fieldB s.idex.instr)

/-- R96 (b), R130: the operands the instruction in execute needs, after the forwarding multiplexers,
are the register values left by all older instructions in program order. -/
abbrev State.operandsCoherent (s : State) : Prop :=
  (needsA s.idex.instr = true → operandA s = readReg s.older.reg (fieldA s.idex.instr)) ∧
  (needsB s.idex.instr = true → operandB s = readReg s.older.reg (fieldB s.idex.instr))

/-- R82, R83: IFID and IDEX hold a bubble (the NOOP word with `pcPlus1` 0), or the word of instruction
memory just before their `pcPlus1`; IDEX also holds the widened offset of its word. -/
abbrev State.fetchCoherent (s : State) : Prop :=
  ((s.ifid.instr = noopWord ∧ s.ifid.pcPlus1 = 0) ∨
    (inRange (s.ifid.pcPlus1 - 1) = true ∧
      s.ifid.instr = s.instrMem.read (s.ifid.pcPlus1 - 1).toNat)) ∧
  ((s.idex.instr = noopWord ∧ s.idex.pcPlus1 = 0) ∨
    (inRange (s.idex.pcPlus1 - 1) = true ∧
      s.idex.instr = s.instrMem.read (s.idex.pcPlus1 - 1).toNat)) ∧
  s.idex.offset = sext16 (fieldImm s.idex.instr)

/-- R101: the instruction in MEMWB writes a register index above 7. -/
abbrev State.writebackFaults (s : State) : Prop :=
  (opcode s.memwb.instr).toNat ≤ 1 ∧ 7 < (fieldImm s.memwb.instr).toNat

/-- R101: the load or store in EXMEM has an address above 65535. -/
abbrev State.memoryFaults (s : State) : Prop :=
  ((opcode s.exmem.instr).toNat = 2 ∨ (opcode s.exmem.instr).toNat = 3) ∧
    65535 < s.exmem.aluResult.toNat

/-- R101: a cycle that fetches (neither redirect nor stall) with the pc above 65535. -/
abbrev State.fetchFaults (p : Params) (s : State) : Prop :=
  redirect s = false ∧ stall p s = false ∧ 65535 < s.pc.toNat

/-- No instruction is in flight: the four latches that still have work hold their canonical empty
value, as after reset (R28). WBEND may hold anything: no stage follows it (R24). -/
abbrev State.drained (s : State) : Prop :=
  s.ifid = .empty ∧ s.idex = .empty ∧ s.exmem = .empty ∧ s.memwb = .empty

/-- R26, R27, U7: two states that agree on everything but fields irrelevant to the occupant of their
latch. `EXMEM.readRegB` counts for the occupants that need operand B; for the others it is a copy of
a value nothing reads (R57). -/
abbrev State.sameRelevant (s t : State) : Prop :=
  s.pc = t.pc ∧ s.reg = t.reg ∧ s.cycles = t.cycles ∧ s.instrMem = t.instrMem ∧
  s.dataMem = t.dataMem ∧ s.progLen = t.progLen ∧ s.ifid = t.ifid ∧
  (s.idex.instr = t.idex.instr ∧ s.idex.pcPlus1 = t.idex.pcPlus1 ∧
    s.idex.readRegA = t.idex.readRegA ∧ s.idex.readRegB = t.idex.readRegB ∧
    s.idex.offset = t.idex.offset ∧
    (needsA s.idex.instr = true → s.idex.hazA = t.idex.hazA) ∧
    (needsB s.idex.instr = true → s.idex.hazB = t.idex.hazB)) ∧
  (s.exmem.instr = t.exmem.instr ∧
    (isBeq s.exmem.instr = true →
      s.exmem.branchTarget = t.exmem.branchTarget ∧ s.exmem.branchTaken = t.exmem.branchTaken) ∧
    (usesAlu s.exmem.instr = true → s.exmem.aluResult = t.exmem.aluResult) ∧
    (needsB s.exmem.instr = true → s.exmem.readRegB = t.exmem.readRegB)) ∧
  (s.memwb.instr = t.memwb.instr ∧
    (producesValue s.memwb.instr = true → s.memwb.writeData = t.memwb.writeData)) ∧
  (s.wbend.instr = t.wbend.instr ∧
    (producesValue s.wbend.instr = true → s.wbend.writeData = t.wbend.writeData))

end Sys2Proof.Machine
end

