-- ==== Sys2Proof/WellFormed.lean ====
section
/-!
DEFINITION. Which instruction terms are well formed: the destination field of `add` and `nor` must
name one of the eight registers (R56). Every other field admits every value (R48, R50, R57).
-/

namespace Sys2Proof

/-- A destination index is legal when it is 0..7; 8..65535 are reserved encodings (R56). -/
def legalDest (d : Imm16) : Bool := decide (d.toNat < Config.numRegs)

/-- R56: the one check on operands. A term that fails it still decodes, encodes and flows down the
pipeline; it faults if it reaches the writeback stage. -/
def Instr.wellFormed : Instr → Bool
  | .add _ _ d  => legalDest d
  | .nor _ _ d  => legalDest d
  | .lw _ _ _   => true
  | .sw _ _ _   => true
  | .beq _ _ _  => true
  | .jalr _ _ _ => true
  | .halt _ _ _ => true
  | .noop _ _ _ => true

end Sys2Proof
end

