-- ==== Sys2Proof/Certificates/Slice0/Obligations.lean ====
section
/-!
DEFINITION. The statements of this package. Statements about a cycle quantify over the parameters `p`
of R7; `step` is the cycle under the spec's defaults. A statement about a next state names every part
of the state it leaves unchanged.
-/

open Sys2Proof Sys2Proof.Machine Sys2Proof.Config

/-! ### Encoding -/

/-- R46, R48, R49, R52, R57: no bit of any field of any instruction is lost in the word. -/
def Obligations.DecodeOfEncodeIsInstruction : Prop :=
  ∀ i : Instr, decode (encode i) = .ok i

/-- R46, R52: a recognised word is the encoding of the instruction it decodes to. -/
def Obligations.EncodeOfDecodeIsWord : Prop :=
  ∀ (w : Word) (i : Instr), decode w = .ok i → encode i = w

/-- R47, whole: position, width and meaning of the opcode field, and that an arithmetic shift would
decide the same. -/
def Obligations.OpcodeFieldDecidesRecognition : Prop :=
  ∀ w : Word,
    (opcode w).toNat = w.toNat / 2 ^ 22 ∧
    ((∃ i, decode w = .ok i) ↔ (opcode w).toNat ≤ 7) ∧
    ((opcode w).toNat ≤ 7 ↔ w.toNat / 2 ^ 25 = 0) ∧
    ((opcode w).toNat ≤ 7 → (opcode w).toNat = w.toNat / 2 ^ 22 % 8) ∧
    (7 < (opcode w).toNat → decode w = .error (.unrecognisedOpcode (opcode w))) ∧
    ((w.sshiftRight 22).toNat ≤ 7 ↔ (opcode w).toNat ≤ 7)

/-- R48, R49, whole: the three other fields of a word, read as unsigned numbers. -/
def Obligations.RegisterAndImmediateFields : Prop :=
  ∀ w : Word,
    (fieldA w).toNat = w.toNat / 2 ^ 19 % 8 ∧ (fieldA w).toNat ≤ 7 ∧
    (fieldB w).toNat = w.toNat / 2 ^ 16 % 8 ∧ (fieldB w).toNat ≤ 7 ∧
    (fieldImm w).toNat = w.toNat % 65536

/-- R52: the match and mask columns of the opcode map, and the fields each row uses. -/
def Obligations.OpcodeMapByMatchAndMask : Prop :=
  ∀ w : Word,
    (w &&& 0xFFC00000#32 = 0x00000000#32 → decode w = .ok (.add (fieldA w) (fieldB w) (fieldImm w))) ∧
    (w &&& 0xFFC00000#32 = 0x00400000#32 → decode w = .ok (.nor (fieldA w) (fieldB w) (fieldImm w))) ∧
    (w &&& 0xFFC00000#32 = 0x00800000#32 → decode w = .ok (.lw (fieldA w) (fieldB w) (fieldImm w))) ∧
    (w &&& 0xFFC00000#32 = 0x00C00000#32 → decode w = .ok (.sw (fieldA w) (fieldB w) (fieldImm w))) ∧
    (w &&& 0xFFC00000#32 = 0x01000000#32 → decode w = .ok (.beq (fieldA w) (fieldB w) (fieldImm w))) ∧
    (w &&& 0xFFC00000#32 = 0x01400000#32 → decode w = .ok (.jalr (fieldA w) (fieldB w) (fieldImm w))) ∧
    (w &&& 0xFFC00000#32 = 0x01800000#32 → decode w = .ok (.halt (fieldA w) (fieldB w) (fieldImm w))) ∧
    (w &&& 0xFFC00000#32 = 0x01C00000#32 → decode w = .ok (.noop (fieldA w) (fieldB w) (fieldImm w)))

/-- R59: the word of an instruction as shifts and ors of its fields. -/
def Obligations.EncodedWordIsShiftedFields : Prop :=
  ∀ (a b : RegNum) (x : Imm16),
    let low : Word := (a.setWidth 32 <<< 19) ||| (b.setWidth 32 <<< 16) ||| x.setWidth 32
    encode (.add a b x) = (0#32 <<< 22) ||| low ∧
    encode (.nor a b x) = (1#32 <<< 22) ||| low ∧
    encode (.lw a b x) = (2#32 <<< 22) ||| low ∧
    encode (.sw a b x) = (3#32 <<< 22) ||| low ∧
    encode (.beq a b x) = (4#32 <<< 22) ||| low ∧
    encode (.jalr a b x) = (5#32 <<< 22) ||| low ∧
    encode (.halt a b x) = (6#32 <<< 22) ||| low ∧
    encode (.noop a b x) = (7#32 <<< 22) ||| low

/-- 30_encoding.md section 6: worked encodings, one word of each instruction and two unrecognised. -/
def Obligations.WorkedEncodingsDecode : Prop :=
  decode 0x000A0003#32 = .ok (.add 1 2 3) ∧ decode 0x00400001#32 = .ok (.nor 0 0 1) ∧
  decode 0x0081000B#32 = .ok (.lw 0 1 11) ∧ decode 0x00C3000D#32 = .ok (.sw 0 3 13) ∧
  decode 0x0100FFFB#32 = .ok (.beq 0 0 0xFFFB) ∧ decode 0x014A0000#32 = .ok (.jalr 1 2 0) ∧
  decode 0x01800000#32 = .ok (.halt 0 0 0) ∧ decode 0x01C00000#32 = .ok (.noop 0 0 0) ∧
  decode 0x02090003#32 = .error (.unrecognisedOpcode 8) ∧
  decode 0xFFFFFFFF#32 = .error (.unrecognisedOpcode 1023)

/-- R50, whole: sign extension, its examples, the offset of `lw`, `sw` and `beq`, and that decode
carries the widened field in IDEX for every word. -/
def Obligations.OffsetIsSignExtended : Prop :=
  (∀ v : Imm16,
    (v.toNat / 2 ^ 15 = 0 → sext16 v = v.setWidth 32) ∧
    (v.toNat / 2 ^ 15 = 1 → sext16 v = v.setWidth 32 + 0xFFFF0000#32 ∧
      (sext16 v).toInt = (v.toNat : Int) - 65536)) ∧
  sext16 0x7FFF = 0x00007FFF#32 ∧ sext16 0x8000 = 0xFFFF8000#32 ∧
  sext16 0xFFFF = 0xFFFFFFFF#32 ∧ sext16 0xFFFB = 0xFFFFFFFB#32 ∧
  (∀ (w : Word) (a b : RegNum) (off : Imm16),
    (decode w = .ok (.lw a b off) ∨ decode w = .ok (.sw a b off) ∨ decode w = .ok (.beq a b off)) →
      sext16 off = sext16 (fieldImm w)) ∧
  (∀ (p : Params) (s t : State), s.halted = false → redirect s = false → stall p s = false →
    cycle p s = .next t → t.idex.offset = sext16 (fieldImm s.ifid.instr))

/-! ### Reset and load -/

/-- R28, whole: the state before the first cycle, for every image that fits. -/
def Obligations.ResetStateOfImage : Prop :=
  ∀ image : List Word, image.length ≤ 65536 →
    ∃ s, State.load image = some s ∧
      s.pc = 0 ∧ (∀ r : RegNum, readReg s.reg r = 0) ∧ s.cycles = 0 ∧
      (∀ a, a < 65536 → s.instrMem.read a = image.getD a 0 ∧ s.dataMem.read a = image.getD a 0) ∧
      s.progLen = image.length ∧
      s.ifid = ⟨0x01C00000, 0⟩ ∧
      s.idex = ⟨0x01C00000, 0, 0, 0, 0, ⟨false, .none⟩, ⟨false, .none⟩⟩ ∧
      s.exmem = ⟨0x01C00000, 0, false, 0, 0, ⟨false, .none⟩, ⟨false, .none⟩⟩ ∧
      s.memwb = ⟨0x01C00000, 0, ⟨false, .none⟩, ⟨false, .none⟩⟩ ∧
      s.wbend = ⟨0x01C00000, 0, ⟨false, .none⟩, ⟨false, .none⟩⟩ ∧
      s.halted = false

/-- D17, D27, U12, U13: `State.reset` is the reset state of the empty image; an image that does not
fit is no reset state; a decimal line stands for its value modulo 2^32 and is refused outside the
range of a 32-bit word; the lines of an image are loaded as their words. -/
def Obligations.ImagesAndLinesTheLoaderTakes : Prop :=
  State.load [] = some State.reset ∧ core.reset = State.reset ∧
  (∀ image : List Word, 65536 < image.length → State.load image = none) ∧
  (∀ v : Int, -(2 ^ 31) ≤ v → v < 2 ^ 32 →
    ∃ w, lineWord v = some w ∧ (w.toNat : Int) = v % 2 ^ 32) ∧
  (∀ v : Int, v < -(2 ^ 31) ∨ 2 ^ 32 ≤ v → lineWord v = none) ∧
  (∀ image : List Word, State.loadLines (image.map fun w => (w.toNat : Int)) = State.load image)

/-! ### Memory and registers -/

/-- R34, whole: a data access inside 0..65535 reads or writes that one word; outside, which takes in
every address whose signed reading is negative, it is a FAULT. -/
def Obligations.DataAccessAndRangeCheck : Prop :=
  ∀ (m : Memory) (a v : Word),
    (a.toNat ≤ 65535 →
      memRead m a = .ok (m.read a.toNat) ∧
      ∃ m', memWrite m a v = .ok m' ∧ m'.read a.toNat = v ∧
        ∀ b, b ≠ a.toNat → m'.read b = m.read b) ∧
    (65535 < a.toNat →
      memRead m a = .error (.dataAddressOutOfRange a) ∧
      memWrite m a v = .error (.dataAddressOutOfRange a)) ∧
    (a.toInt < 0 → 65535 < a.toNat)

/-- R35, whole: what a fetch returns, where it faults, and that only a cycle that is neither a stall
nor a redirect reads the instruction memory. -/
def Obligations.FetchOnlyInNormalCycles : Prop :=
  ∀ (p : Params) (s : State), s.halted = false →
    (redirect s = false → stall p s = false →
      (s.pc.toNat ≤ 65535 → ∀ t, cycle p s = .next t → t.ifid.instr = s.instrMem.read s.pc.toNat) ∧
      (65535 < s.pc.toNat → ¬ s.writebackFaults → ¬ s.memoryFaults →
        cycle p s = .fault (.fetchAddressOutOfRange s.pc))) ∧
    (redirect s = true ∨ stall p s = true →
      (∀ a, cycle p s ≠ .fault (.fetchAddressOutOfRange a)) ∧
      ∀ (m : Memory) (t : State), cycle p s = .next t →
        cycle p { s with instrMem := m } = .next { t with instrMem := m })

/-- R42: a store followed at once by a load of the same address: the load gets the stored word. -/
def Obligations.LoadAfterStoreGetsStoredWord : Prop :=
  ∀ (p : Params) (s t u : State), s.halted = false → t.halted = false →
    cycle p s = .next t → cycle p t = .next u →
    (opcode s.exmem.instr).toNat = 3 → (opcode t.exmem.instr).toNat = 2 →
    t.exmem.aluResult = s.exmem.aluResult →
    u.memwb.writeData = s.exmem.readRegB

/-- R31, R44: no number of cycles and no instruction changes the instruction memory, so every word
ever fetched is the loaded one, whatever was stored meanwhile. `exec` is the program-order effect, the
model's choice (log 1). -/
def Obligations.StoresNeverReachFetch : Prop :=
  (∀ (p : Params) (k : Nat) (s t : State), runCycles p k s = .next t →
    t.instrMem = s.instrMem ∧ t.progLen = s.progLen ∧
    ∀ u, t.halted = false → redirect t = false → stall p t = false → cycle p t = .next u →
      u.ifid.instr = s.instrMem.read t.pc.toNat) ∧
  (∀ (i : Instr) (s t : State), exec i s = .next t →
    t.instrMem = s.instrMem ∧ t.progLen = s.progLen)

/-- Both memories stay in canonical form, over every cycle from every such state (the model's form
of the memories, log 7), and over every `exec` (the program-order effect, log 1). -/
def Obligations.MemoriesStayCanonical : Prop :=
  (∀ s t : State, s.memoriesWf → Sys2Proof.Machine.step s = .next t → t.memoriesWf) ∧
  (∀ (p : Params) (s t : State), s.memoriesWf → cycle p s = .next t → t.memoriesWf) ∧
  (∀ (i : Instr) (s t : State), s.memoriesWf → exec i s = .next t → t.memoriesWf)

/-- Canonical memories that read the same are the same data (log 7). -/
def Obligations.EqualReadsEqualMemory : Prop :=
  ∀ m m' : Memory, m.wf → m'.wf → (∀ a, m.read a = m'.read a) → m = m'

/-- R11, whole: every one of the eight registers can be written, register 0 too, and reads back what
was written; no other register changes. -/
def Obligations.EveryRegisterIsWritable : Prop :=
  (∀ (regs : Vector Word 8) (r : RegNum) (v : Word),
    ∃ regs', writeReg regs (regIndex r) v = .ok regs' ∧ readReg regs' r = v ∧
      ∀ q : RegNum, q ≠ r → readReg regs' q = readReg regs q) ∧
  (∀ (p : Params) (s t : State) (r : RegNum), s.halted = false → cycle p s = .next t →
    destOf s.memwb.instr = some (regIndex r) →
    readReg t.reg r = s.memwb.writeData ∧ ∀ q : RegNum, q ≠ r → readReg t.reg q = readReg s.reg q)

/-! ### The program-order effect of each instruction -/

/-- R62, architectural effect: for a legal destination `add` completes with the sum modulo 2^32 in
register D and the pc one further; every other register, every memory word and all else unchanged.
`exec` leaves the latches and the cycle count alone, which is the model's choice (log 1). -/
def Obligations.AddWritesSum : Prop :=
  ∀ (a b : RegNum) (d : Imm16) (s : State), d.toNat ≤ 7 →
    ∃ t, exec (.add a b d) s = .next t ∧
      (∀ r : RegNum, r.toNat = d.toNat →
        (readReg t.reg r).toNat = ((readReg s.reg a).toNat + (readReg s.reg b).toNat) % 2 ^ 32) ∧
      (∀ r : RegNum, r.toNat ≠ d.toNat → readReg t.reg r = readReg s.reg r) ∧
      t.pc = s.pc + 1 ∧ (∀ x, t.dataMem.read x = s.dataMem.read x) ∧
      t = { s with reg := t.reg, pc := t.pc }

/-- R63, architectural effect: for a legal destination `nor` completes with, in register D, a 1 in
exactly the bits where both sources have 0, and the pc one further; all else unchanged.
`exec` leaves the latches and the cycle count alone, which is the model's choice (log 1). -/
def Obligations.NorWritesNor : Prop :=
  ∀ (a b : RegNum) (d : Imm16) (s : State), d.toNat ≤ 7 →
    ∃ t, exec (.nor a b d) s = .next t ∧
      (∀ r : RegNum, r.toNat = d.toNat → ∀ k, k < 32 →
        ((readReg t.reg r).getLsbD k = true ↔
          (readReg s.reg a).getLsbD k = false ∧ (readReg s.reg b).getLsbD k = false)) ∧
      (∀ r : RegNum, r.toNat ≠ d.toNat → readReg t.reg r = readReg s.reg r) ∧
      t.pc = s.pc + 1 ∧ (∀ x, t.dataMem.read x = s.dataMem.read x) ∧
      t = { s with reg := t.reg, pc := t.pc }

/-- R67, architectural effect: when the address is inside the memory, `lw` completes with the data
word in register B and the pc one further; all else unchanged.
`exec` leaves the latches and the cycle count alone, which is the model's choice (log 1). -/
def Obligations.LwLoadsWord : Prop :=
  ∀ (a b : RegNum) (off : Imm16) (s : State),
    (readReg s.reg a + sext16 off).toNat ≤ 65535 →
    ∃ t, exec (.lw a b off) s = .next t ∧
      readReg t.reg b = s.dataMem.read (readReg s.reg a + sext16 off).toNat ∧
      (∀ r : RegNum, r ≠ b → readReg t.reg r = readReg s.reg r) ∧
      t.pc = s.pc + 1 ∧ (∀ x, t.dataMem.read x = s.dataMem.read x) ∧
      t = { s with reg := t.reg, pc := t.pc }

/-- R68, architectural effect: when the address is inside the memory, `sw` completes with register B
in the data word at the effective address and the pc one further; every other data word reads as
before and all else is unchanged.
`exec` leaves the latches and the cycle count alone, which is the model's choice (log 1). -/
def Obligations.SwStoresWord : Prop :=
  ∀ (a b : RegNum) (off : Imm16) (s : State),
    (effectiveAddress (readReg s.reg a) (sext16 off)).toNat ≤ 65535 →
    ∃ t, exec (.sw a b off) s = .next t ∧
      t.dataMem.read (effectiveAddress (readReg s.reg a) (sext16 off)).toNat = readReg s.reg b ∧
      (∀ x, x ≠ (effectiveAddress (readReg s.reg a) (sext16 off)).toNat →
        t.dataMem.read x = s.dataMem.read x) ∧
      effectiveAddress (readReg s.reg a) (sext16 off) = readReg s.reg a + sext16 off ∧
      t.pc = s.pc + 1 ∧ t = { s with dataMem := t.dataMem, pc := t.pc }

/-- R70: `beq` always completes; control goes to the address after the branch plus the widened offset
modulo 2^32 exactly when the two registers are equal, else one further; all else unchanged.
`exec` leaves the latches and the cycle count alone, which is the model's choice (log 1). -/
def Obligations.BeqSetsPc : Prop :=
  ∀ (a b : RegNum) (off : Imm16) (s : State),
    ∃ t, exec (.beq a b off) s = .next t ∧
      (readReg s.reg a = readReg s.reg b → t.pc = s.pc + 1 + sext16 off) ∧
      (readReg s.reg a ≠ readReg s.reg b → t.pc = s.pc + 1) ∧
      (∀ x, t.dataMem.read x = s.dataMem.read x) ∧ t = { s with pc := t.pc }

/-- R71, R74: `jalr` and `noop` always complete, for every value of their ignored bits, and only
advance the pc: no register is linked, nothing jumps. That `jalr` does what `noop` does is the spec's
decision D18; that `exec` counts no cycle and leaves the latches is the model's choice (log 1). -/
def Obligations.JalrAndNoopOnlyAdvance : Prop :=
  ∀ (a b : RegNum) (imm : Imm16) (s : State),
    exec (.jalr a b imm) s = .next { s with pc := s.pc + 1 } ∧
    exec (.noop a b imm) s = .next { s with pc := s.pc + 1 }

/-- R72, R81: `halt` always completes, for every value of its ignored bits: its word stands in MEMWB,
the machine is halted, every further cycle leaves that state as it is, and nothing else changed. That
`exec` puts the word into MEMWB at once is the model's choice (log 1), that a cycle of a halted machine
answers the same state is another (log 2). -/
def Obligations.HaltEntersHalted : Prop :=
  ∀ (a b : RegNum) (imm : Imm16) (s : State),
    ∃ t, exec (.halt a b imm) s = .next t ∧ t.halted = true ∧
      t.memwb.instr = encode (.halt a b imm) ∧ t = { s with memwb := t.memwb } ∧
      ∀ (p : Params) (k : Nat), runCycles p k t = .next t

/-- R56, R62, R63, R67, R68: exactly where an instruction's own effect is a FAULT: a destination
index above 7, a data address above 65535; no instruction is ever refused. The faults are the spec's
decisions D7 and D9 (log 3); `exec` is the program-order effect, the model's choice (log 1). -/
def Obligations.ExecFaultsExactlyHere : Prop :=
  ∀ (i : Instr) (s : State),
    (∀ f, exec i s = .fault f ↔
      (∃ (a b : RegNum) (d : Imm16), (i = .add a b d ∨ i = .nor a b d) ∧ 7 < d.toNat ∧
        f = .destinationOutOfRange d) ∨
      (∃ (a b : RegNum) (off : Imm16), (i = .lw a b off ∨ i = .sw a b off) ∧
        65535 < (readReg s.reg a + sext16 off).toNat ∧
        f = .dataAddressOutOfRange (readReg s.reg a + sext16 off))) ∧
    (∀ r, exec i s ≠ .refused r)

/-! ### The cycle -/

/-- R81: the halted test on the whole opcode field of MEMWB, before anything else; the halted
condition is permanent and counts no cycle. That `Halted` is the next state `s` itself is the model's
choice (log 2). -/
def Obligations.HaltedStateIsPermanent : Prop :=
  ∀ (p : Params) (s : State),
    ((opcode s.memwb.instr).toNat = 6 →
      cycle p s = .next s ∧ ∀ k, runCycles p k s = .next s) ∧
    ((opcode s.memwb.instr).toNat ≠ 6 → ∀ t, cycle p s = .next t → t.cycles = s.cycles + 1) ∧
    (∀ e, decode s.memwb.instr = .error e → (opcode s.memwb.instr).toNat ≠ 6)

/-- R82, whole: the three cases of the front end, one of which applies. -/
def Obligations.FrontEndCases : Prop :=
  ∀ (p : Params) (s t : State), s.halted = false → cycle p s = .next t →
    (redirect s = true →
      t.pc = s.exmem.branchTarget ∧ t.ifid = .empty ∧ t.idex = .empty) ∧
    (redirect s = false → stall p s = true →
      t.pc = s.pc ∧ t.ifid = s.ifid ∧ t.idex = .empty) ∧
    (redirect s = false → stall p s = false →
      s.pc.toNat ≤ 65535 ∧ t.ifid.instr = s.instrMem.read s.pc.toNat ∧
      t.ifid.pcPlus1 = s.pc + 1 ∧ t.pc = s.pc + 1 ∧ t.idex = decodeStage p s)

/-- R83, whole: what decode puts into IDEX in a normal cycle, for every word, from the old register
file. -/
def Obligations.DecodeReadsOldRegisters : Prop :=
  ∀ (p : Params) (s t : State), s.halted = false → redirect s = false → stall p s = false →
    cycle p s = .next t →
    t.idex.instr = s.ifid.instr ∧ t.idex.pcPlus1 = s.ifid.pcPlus1 ∧
    t.idex.readRegA = readReg s.reg (fieldA s.ifid.instr) ∧
    t.idex.readRegB = readReg s.reg (fieldB s.ifid.instr) ∧
    t.idex.offset = sext16 (fieldImm s.ifid.instr) ∧
    t.idex.hazA = descriptorA p s s.ifid.instr ∧ t.idex.hazB = descriptorB p s s.ifid.instr

/-- R85, R86, R87: what the instruction in IDEX leaves in EXMEM, by its opcode field, with its operands
taken from the register file or from the latch its descriptor names. Which latch a descriptor names is
the spec's decision D11, the zeros of the fields an opcode does not use are its decision D5 (R26,
log 11). -/
def Obligations.ExecuteFillsExMem : Prop :=
  ∀ (p : Params) (s t : State) (a b : Word), s.halted = false →
    (redirect s && p.squashExecute) = false → cycle p s = .next t →
    (s.idex.hazA.present = false → a = s.idex.readRegA) →
    (s.idex.hazA = ⟨true, .ex⟩ → a = s.exmem.aluResult) →
    (s.idex.hazA = ⟨true, .mem⟩ → a = s.memwb.writeData) →
    (s.idex.hazA = ⟨true, .wb⟩ → a = s.wbend.writeData) → s.idex.hazA.wf →
    (s.idex.hazB.present = false → b = s.idex.readRegB) →
    (s.idex.hazB = ⟨true, .ex⟩ → b = s.exmem.aluResult) →
    (s.idex.hazB = ⟨true, .mem⟩ → b = s.memwb.writeData) →
    (s.idex.hazB = ⟨true, .wb⟩ → b = s.wbend.writeData) → s.idex.hazB.wf →
    t.exmem.instr = s.idex.instr ∧ t.exmem.readRegB = b ∧
    t.exmem.hazA = s.idex.hazA ∧ t.exmem.hazB = s.idex.hazB ∧
    ((opcode s.idex.instr).toNat = 0 → t.exmem.aluResult = a + b) ∧
    ((opcode s.idex.instr).toNat = 1 → t.exmem.aluResult = ~~~(a ||| b)) ∧
    ((opcode s.idex.instr).toNat = 2 ∨ (opcode s.idex.instr).toNat = 3 →
      t.exmem.aluResult = a + s.idex.offset) ∧
    (3 < (opcode s.idex.instr).toNat → t.exmem.aluResult = 0) ∧
    ((opcode s.idex.instr).toNat = 4 →
      (t.exmem.branchTaken = true ↔ a = b) ∧
      t.exmem.branchTarget = s.idex.pcPlus1 + s.idex.offset) ∧
    ((opcode s.idex.instr).toNat ≠ 4 →
      t.exmem.branchTaken = false ∧ t.exmem.branchTarget = 0)

/-- R89, R136: in a redirect cycle the instruction in IDEX goes on to EXMEM under the default of
`SQUASH_EXECUTE`, and EXMEM is emptied when the parameter is true. -/
def Obligations.SlotInstructionCompletesByDefault : Prop :=
  ∀ (p : Params) (s t : State), s.halted = false → redirect s = true → cycle p s = .next t →
    t.ifid = .empty ∧ t.idex = .empty ∧
    (p.squashExecute = true → t.exmem = .empty) ∧
    (p.squashExecute = false → t.exmem = executeStage s ∧ t.exmem.instr = s.idex.instr) ∧
    defaultParams.squashExecute = false

/-- R88: what the instruction in EXMEM does in the memory stage, and where it faults (unless the older
instruction in MEMWB does, R93). The zeros of `writeData` are the spec's decision D5 (R26, log 11), the
fault its decision D7 (R34, log 3), the order of faults its decision D16 (R93, log 16). -/
def Obligations.MemoryStageByOpcode : Prop :=
  ∀ (p : Params) (s : State), s.halted = false →
    ((opcode s.exmem.instr).toNat = 2 ∨ (opcode s.exmem.instr).toNat = 3 →
      65535 < s.exmem.aluResult.toNat → ¬ s.writebackFaults →
      cycle p s = .fault (.dataAddressOutOfRange s.exmem.aluResult)) ∧
    ∀ t, cycle p s = .next t →
    t.memwb.instr = s.exmem.instr ∧ t.memwb.hazA = s.exmem.hazA ∧ t.memwb.hazB = s.exmem.hazB ∧
    ((opcode s.exmem.instr).toNat ≤ 1 → t.memwb.writeData = s.exmem.aluResult) ∧
    ((opcode s.exmem.instr).toNat = 2 → s.exmem.aluResult.toNat ≤ 65535 ∧
      t.memwb.writeData = s.dataMem.read s.exmem.aluResult.toNat) ∧
    ((opcode s.exmem.instr).toNat = 3 → s.exmem.aluResult.toNat ≤ 65535 ∧
      t.memwb.writeData = 0 ∧
      t.dataMem.read s.exmem.aluResult.toNat = s.exmem.readRegB ∧
      ∀ x, x ≠ s.exmem.aluResult.toNat → t.dataMem.read x = s.dataMem.read x) ∧
    (3 < (opcode s.exmem.instr).toNat → t.memwb.writeData = 0) ∧
    ((opcode s.exmem.instr).toNat ≠ 3 → t.dataMem = s.dataMem) ∧
    t.instrMem = s.instrMem

/-- R90: what the instruction in MEMWB does in writeback: at most one register is written, the
destination of an `add`, `nor` or `lw`; an index above 7 faults, which is the spec's decision D9 (R56,
log 3). -/
def Obligations.WritebackCommitsOneRegister : Prop :=
  ∀ (p : Params) (s : State), s.halted = false →
    ((opcode s.memwb.instr).toNat ≤ 1 → 7 < (fieldImm s.memwb.instr).toNat →
      cycle p s = .fault (.destinationOutOfRange (fieldImm s.memwb.instr))) ∧
    ∀ t, cycle p s = .next t →
    ((opcode s.memwb.instr).toNat ≤ 1 → (fieldImm s.memwb.instr).toNat ≤ 7 ∧
      ∀ r : RegNum, readReg t.reg r =
        if r.toNat = (fieldImm s.memwb.instr).toNat then s.memwb.writeData else readReg s.reg r) ∧
    ((opcode s.memwb.instr).toNat = 2 →
      ∀ r : RegNum, readReg t.reg r =
        if r = fieldB s.memwb.instr then s.memwb.writeData else readReg s.reg r) ∧
    (2 < (opcode s.memwb.instr).toNat → t.reg = s.reg) ∧
    t.wbend = ⟨s.memwb.instr, s.memwb.writeData, s.memwb.hazA, s.memwb.hazB⟩

/-- R92: a performed cycle counts one and leaves the instruction memory and the program length. -/
def Obligations.PerformedCycleCountsOne : Prop :=
  ∀ (p : Params) (s t : State), s.halted = false → cycle p s = .next t →
    t.cycles = s.cycles + 1 ∧ t.instrMem = s.instrMem ∧ t.progLen = s.progLen

/-- R101, R104: which faults a cycle reports, in which order, and that it commits a next state
whenever there is none; the halted test comes before all of them. That a halted machine's cycle answers
the same state as next, where R94 answers `Halted`, is the model's choice (log 2); the faults and their
order are the spec's decisions D7, D8, D9 and D16 (log 3, log 16). -/
def Obligations.FaultKindsAndPriority : Prop :=
  ∀ (p : Params) (s : State),
    (s.halted = true → cycle p s = .next s) ∧
    (s.halted = false →
      (s.writebackFaults → cycle p s = .fault (.destinationOutOfRange (fieldImm s.memwb.instr))) ∧
      (¬ s.writebackFaults → s.memoryFaults →
        cycle p s = .fault (.dataAddressOutOfRange s.exmem.aluResult)) ∧
      (¬ s.writebackFaults → ¬ s.memoryFaults → s.fetchFaults p →
        cycle p s = .fault (.fetchAddressOutOfRange s.pc)) ∧
      (¬ s.writebackFaults → ¬ s.memoryFaults → ¬ s.fetchFaults p → ∃ t, cycle p s = .next t)) ∧
    (∀ r, cycle p s ≠ .refused r)

/-- R56, whole: a destination index above 7 decodes, passes execute and memory, matches no register
in the hazard scan, and faults with its full index in writeback. -/
def Obligations.ReservedDestinationFaultsInWriteback : Prop :=
  ∀ (a b : RegNum) (d : Imm16), 7 < d.toNat → ∀ i : Instr, i = .add a b d ∨ i = .nor a b d →
    decode (encode i) = .ok i ∧
    (∀ (p : Params) (w : Word) (r : RegNum) (tag : HazSrc),
      scanEntry p w r (encode i) tag = .none) ∧
    (∀ (m : Memory) (x v : Word), memoryOf (encode i) m x v = .ok (x, m)) ∧
    (∀ (p : Params) (s : State), s.memwb.instr = encode i →
      cycle p s = .fault (.destinationOutOfRange d))

/-! ### Hazards, stall, redirect -/

/-- R61, whole: the destination of a word, by its opcode field; the 16-bit field of `add` and `nor` is
not masked. -/
def Obligations.DestinationOfWord : Prop :=
  ∀ w : Word,
    ((opcode w).toNat ≤ 1 → destOf w = some (fieldImm w) ∧
      ∀ r : RegNum, destOf w = some (regIndex r) ↔ (fieldImm w).toNat = r.toNat) ∧
    ((opcode w).toNat = 2 → ∃ d, destOf w = some d ∧ d.toNat = (fieldB w).toNat) ∧
    (2 < (opcode w).toNat → destOf w = none)

/-- R126, whole, and R127: the operands a word needs, by its opcode field; the descriptor of a needed
operand is its scan, one that is not needed has the clear descriptor and never stalls. -/
def Obligations.NeededOperands : Prop :=
  ∀ w : Word,
    (needsA w = true ↔ (opcode w).toNat ≤ 4) ∧
    (needsB w = true ↔ (opcode w).toNat ≤ 1 ∨ (opcode w).toNat = 3 ∨ (opcode w).toNat = 4) ∧
    (∀ (p : Params) (s : State),
      (needsA w = true → descriptorA p s w = descriptorOf (scan p s (fieldA w) w)) ∧
      (needsB w = true → descriptorB p s w = descriptorOf (scan p s (fieldB w) w)) ∧
      (needsA w = false → descriptorA p s w = ⟨false, .none⟩) ∧
      (needsB w = false → descriptorB p s w = ⟨false, .none⟩) ∧
      (s.ifid.instr = w → needsA w = false → needsB w = false → stall p s = false))

/-- R128, whole: the scan answers for the nearest producer, whatever stands behind it; the nearest load
is load-use; `LWLW_FAR_DROP` drops the one case of R129. -/
def Obligations.NearestProducerWins : Prop :=
  ∀ (p : Params) (s : State) (r : RegNum) (w : Word),
    let produces (x : Word) : Prop := destOf x = some (regIndex r)
    (produces s.idex.instr → (opcode s.idex.instr).toNat ≤ 1 → scan p s r w = .forward .ex) ∧
    (produces s.idex.instr → (opcode s.idex.instr).toNat = 2 → scan p s r w = .loadUse) ∧
    (¬ produces s.idex.instr → produces s.exmem.instr → scan p s r w = .forward .mem) ∧
    (¬ produces s.idex.instr → ¬ produces s.exmem.instr → produces s.memwb.instr →
      scan p s r w =
        if (opcode s.memwb.instr).toNat = 2 ∧ (opcode w).toNat = 2 ∧ p.lwlwFarDrop = true
        then .none else .forward .wb) ∧
    (¬ produces s.idex.instr → ¬ produces s.exmem.instr → ¬ produces s.memwb.instr →
      scan p s r w = .none)

/-- R131, whole: the one stall condition. -/
def Obligations.StallOnlyOnLoadUse : Prop :=
  ∀ (p : Params) (s : State),
    (loadUse p s = true ↔
      (opcode s.idex.instr).toNat = 2 ∧
      ((needsA s.ifid.instr = true ∧ fieldB s.idex.instr = fieldA s.ifid.instr) ∨
       (needsB s.ifid.instr = true ∧ fieldB s.idex.instr = fieldB s.ifid.instr))) ∧
    (stall p s = true ↔ loadUse p s = true ∧ redirect s = false)

/-- R132, whole: a stall cycle. -/
def Obligations.StallCycleAction : Prop :=
  ∀ (p : Params) (s t : State), s.halted = false → stall p s = true → cycle p s = .next t →
    t.idex = .empty ∧ t.pc = s.pc ∧ t.ifid = s.ifid ∧
    t.exmem = executeStage s ∧ t.exmem.instr = s.idex.instr ∧ (opcode t.exmem.instr).toNat = 2 ∧
    memoryStage s = .ok (t.memwb, t.dataMem) ∧ writebackStage s = .ok t.reg ∧
    t.wbend = nextWbEnd s ∧ t.cycles = s.cycles + 1 ∧
    ∀ m : Memory, cycle p { s with instrMem := m } = .next { t with instrMem := m }

/-- R133, whole: a stall lasts one cycle; then the consumer decodes again and takes the loaded word
from MEMWB in its execute cycle. -/
def Obligations.StallLastsOneCycle : Prop :=
  ∀ (p : Params) (s t u : State), s.halted = false → t.halted = false →
    stall p s = true → cycle p s = .next t → cycle p t = .next u →
    stall p t = false ∧ loadUse p t = false ∧ u.idex.instr = s.ifid.instr ∧
    u.memwb.instr = s.idex.instr ∧
    u.memwb.writeData = t.dataMem.read t.exmem.aluResult.toNat ∧
    (needsA s.ifid.instr = true → fieldA s.ifid.instr = fieldB s.idex.instr →
      u.idex.hazA = ⟨true, .mem⟩ ∧ operandA u = u.memwb.writeData) ∧
    (needsB s.ifid.instr = true → fieldB s.ifid.instr = fieldB s.idex.instr →
      u.idex.hazB = ⟨true, .mem⟩ ∧ operandB u = u.memwb.writeData)

/-- R135, whole, and R134: when a redirect happens and what it does; the first fetch from the target is
in the following cycle. -/
def Obligations.RedirectAction : Prop :=
  ∀ (p : Params) (s : State),
    (redirect s = true ↔ (opcode s.exmem.instr).toNat = 4 ∧ s.exmem.branchTaken = true) ∧
    (s.halted = false → redirect s = true → ∀ t, cycle p s = .next t →
      t.pc = s.exmem.branchTarget ∧ t.ifid = .empty ∧ t.idex = .empty ∧
      t.memwb.instr = s.exmem.instr ∧ t.dataMem = s.dataMem ∧
      memoryStage s = .ok (t.memwb, t.dataMem) ∧ writebackStage s = .ok t.reg ∧
      t.wbend = nextWbEnd s ∧ t.cycles = s.cycles + 1 ∧
      (∀ m : Memory, cycle p { s with instrMem := m } = .next { t with instrMem := m }) ∧
      ∀ u, t.halted = false → redirect t = false → cycle p t = .next u →
        u.ifid.instr = t.instrMem.read s.exmem.branchTarget.toNat)

/-- R137: a cycle with both a redirect and a load-use request is a redirect cycle. -/
def Obligations.RedirectBeatsStall : Prop :=
  ∀ (p : Params) (s : State), s.halted = false → redirect s = true → loadUse p s = true →
    stall p s = false ∧
    ∀ t, cycle p s = .next t → t.pc = s.exmem.branchTarget ∧ t.ifid = .empty ∧ t.idex = .empty

/-- R75, R86, R88, R127: an unrecognised word is carried unchanged and does nothing in any stage (log 10).
The zeros it leaves in `aluResult` and `writeData` are the spec's decision D5 (R26, log 11), its clear
descriptors follow from the spec's table of needed operands (R126, D10). -/
def Obligations.UnrecognisedWordIsCarriedAsNoop : Prop :=
  (∀ w : Word, 7 < (opcode w).toNat ↔ w.toNat / 2 ^ 25 ≠ 0) ∧
  ∀ (p : Params) (s t : State), s.halted = false → cycle p s = .next t →
    (7 < (opcode s.ifid.instr).toNat → redirect s = false →
      stall p s = false ∧ t.idex.instr = s.ifid.instr ∧
      t.idex.hazA = ⟨false, .none⟩ ∧ t.idex.hazB = ⟨false, .none⟩) ∧
    (7 < (opcode s.idex.instr).toNat →
      loadUse p s = false ∧ destOf s.idex.instr = none ∧
      ((redirect s && p.squashExecute) = false →
        t.exmem.instr = s.idex.instr ∧ t.exmem.aluResult = 0 ∧ t.exmem.branchTaken = false ∧
        redirect t = false)) ∧
    (7 < (opcode s.exmem.instr).toNat →
      redirect s = false ∧ destOf s.exmem.instr = none ∧
      t.memwb.instr = s.exmem.instr ∧ t.memwb.writeData = 0 ∧ t.dataMem = s.dataMem ∧
      t.halted = false) ∧
    (7 < (opcode s.memwb.instr).toNat →
      destOf s.memwb.instr = none ∧ t.reg = s.reg ∧ t.wbend.instr = s.memwb.instr)

/-- R71, R74, R86, R87, R88: in every stage a `jalr` or `noop` word is idle: no descriptor, no stall, no
value, no access, no branch, no register write. That `jalr` is idle is the spec's decision D18, the
zeros in the fields it does not use are its decision D5 (R26, log 11), the operands it does not need
its decision D10 (R126). -/
def Obligations.JalrAndNoopAreIdleInEveryStage : Prop :=
  ∀ w : Word, (opcode w).toNat = 5 ∨ (opcode w).toNat = 7 →
    needsA w = false ∧ needsB w = false ∧ destOf w = none ∧
    (∀ a b off : Word, aluResultOf w a b off = 0) ∧
    (∀ a b q off : Word, branchUnit w a b q off = (false, 0)) ∧
    (∀ (m : Memory) (x v : Word), memoryOf w m x v = .ok (0, m)) ∧
    (∀ (regs : Vector Word 8) (v : Word), writebackOf w regs v = .ok regs) ∧
    (∀ s : State, s.exmem.instr = w → redirect s = false) ∧
    (∀ s : State, s.memwb.instr = w → s.halted = false)

/-- R24: WBEND is read by the forwarding multiplexer for tag `SRC_WB` and by nothing else. -/
def Obligations.WbEndOnlyFeedsForwarding : Prop :=
  ∀ (p : Params) (s : State) (x : WbEndLatch), s.halted = false →
    s.idex.hazA ≠ ⟨true, .wb⟩ → s.idex.hazB ≠ ⟨true, .wb⟩ →
    cycle p { s with wbend := x } = cycle p s

/-- R72, R141: a `halt` fetched when the counter is f, not squashed and with no older `halt`, stops
the machine with the counter at f + 4, where it stays (log 2). -/
def Obligations.HaltStopsFourCyclesAfterFetch : Prop :=
  ∀ (p : Params) (s0 s1 s2 s3 s4 : State),
    s0.halted = false → s1.halted = false → s2.halted = false → s3.halted = false →
    cycle p s0 = .next s1 → cycle p s1 = .next s2 → cycle p s2 = .next s3 → cycle p s3 = .next s4 →
    redirect s0 = false → stall p s0 = false → redirect s1 = false →
    (redirect s2 && p.squashExecute) = false →
    (opcode (s0.instrMem.read s0.pc.toNat)).toNat = 6 →
    s4.halted = true ∧ s4.cycles = s0.cycles + 4 ∧ cycle p s4 = .next s4

/-! ### Invariants -/

/-- R25 (c), (d): descriptors and the branch flag keep their form, over every cycle from every such
state. -/
def Obligations.LatchFormIsInvariant : Prop :=
  (∀ s t : State, s.hazWf ∧ s.branchFlagWf → Sys2Proof.Machine.step s = .next t →
    t.hazWf ∧ t.branchFlagWf) ∧
  (∀ (p : Params) (s t : State), s.hazWf ∧ s.branchFlagWf → cycle p s = .next t →
    t.hazWf ∧ t.branchFlagWf)

/-- R26, R27: fields irrelevant to the occupant of their latch stay 0. -/
def Obligations.IrrelevantFieldsStayZero : Prop :=
  (∀ s t : State, s.irrelevantZero → Sys2Proof.Machine.step s = .next t → t.irrelevantZero) ∧
  (∀ (p : Params) (s t : State), s.irrelevantZero → cycle p s = .next t → t.irrelevantZero)

/-- R82, R83: the front latches always hold a bubble or a word of the instruction memory with its own
address and offset. -/
def Obligations.LatchedWordsComeFromInstructionMemory : Prop :=
  (∀ s t : State, s.fetchCoherent → Sys2Proof.Machine.step s = .next t → t.fetchCoherent) ∧
  (∀ (p : Params) (s t : State), s.fetchCoherent → cycle p s = .next t → t.fetchCoherent)

/-- R85, R128: every descriptor in IDEX points at a latch whose instruction produces that register. -/
def Obligations.DescriptorsPointAtProducers : Prop :=
  (∀ s t : State, s.hazSourced → Sys2Proof.Machine.step s = .next t → t.hazSourced) ∧
  (∀ (p : Params) (s t : State), s.hazSourced → cycle p s = .next t → t.hazSourced)

/-- R96 (b), R130: with the stated default of `LWLW_FAR_DROP`, the operands the instruction in execute
needs are, in every state a cycle leads to, the values left by all older instructions. -/
def Obligations.ForwardedOperandsAreProgramOrderValues : Prop :=
  (∀ s t : State, s.operandsCoherent → Sys2Proof.Machine.step s = .next t → t.operandsCoherent) ∧
  (∀ (p : Params) (s t : State), p.lwlwFarDrop = false → s.operandsCoherent →
    cycle p s = .next t → t.operandsCoherent) ∧
  (∀ (p : Params) (s t : State), p.lwlwFarDrop = false → s.halted = false →
    cycle p s = .next t → t.operandsCoherent)

/-- Every invariant of this package holds in every reset state (R28), and nothing is in flight
there. -/
def Obligations.InvariantsHoldAtReset : Prop :=
  (State.reset.memoriesWf ∧ State.reset.hazWf ∧ State.reset.branchFlagWf ∧
    State.reset.irrelevantZero ∧ State.reset.fetchCoherent ∧ State.reset.hazSourced ∧ State.reset.operandsCoherent) ∧
  ∀ (image : List Word) (s : State), State.load image = some s →
    s.memoriesWf ∧ s.hazWf ∧ s.branchFlagWf ∧ s.irrelevantZero ∧ s.fetchCoherent ∧
    s.hazSourced ∧ s.operandsCoherent ∧ s.drained

/-- R129: a load three behind the load of its base register: forwarded from WBEND by default, the
stale register value when `LWLW_FAR_DROP` is true. -/
def Obligations.FarLoadToLoadForwarding : Prop :=
  ∀ (p : Params) (s t : State), s.halted = false → redirect s = false → stall p s = false →
    cycle p s = .next t →
    (opcode s.ifid.instr).toNat = 2 → (opcode s.memwb.instr).toNat = 2 →
    fieldB s.memwb.instr = fieldA s.ifid.instr →
    destOf s.idex.instr ≠ some (regIndex (fieldA s.ifid.instr)) →
    destOf s.exmem.instr ≠ some (regIndex (fieldA s.ifid.instr)) →
    (p.lwlwFarDrop = false → t.idex.hazA = ⟨true, .wb⟩ ∧ operandA t = s.memwb.writeData) ∧
    (p.lwlwFarDrop = true → t.idex.hazA = ⟨false, .none⟩ ∧
      operandA t = readReg s.reg (fieldA s.ifid.instr))

/-- R26: no register, memory word, pc value, cycle count or fault depends on an irrelevant field: two
states that agree on the relevant fields run alike and agree again. -/
def Obligations.IrrelevantFieldsDoNotMatter : Prop :=
  ∀ (p : Params) (s s' : State), s.sameRelevant s' → s.hazSourced → s'.hazSourced →
    (∀ t, cycle p s = .next t → ∃ t', cycle p s' = .next t' ∧ t.sameRelevant t') ∧
    (∀ f, cycle p s = .fault f → cycle p s' = .fault f)

/-! ### A step runs the decoded instruction -/

/-- R62 to R75 against R82 to R88: with nothing else in flight, the word at the pc that decodes to
`i` is fetched by one step, and two steps later it stands in EXMEM, the state having, in program
order, the registers, the data memory and the next address that `exec i` gives. The program-order view
of a pipelined state is the model's choice (log 1). -/
def Obligations.StepsRunTheInstructionAtPc : Prop :=
  ∀ (s u : State) (i : Instr), s.drained → s.pc.toNat + 2 ≤ 65535 →
    decode (s.instrMem.read s.pc.toNat) = .ok i → exec i s = .next u →
    ∃ t1 t2 t3, Sys2Proof.Machine.step s = .next t1 ∧ Sys2Proof.Machine.step t1 = .next t2 ∧
      Sys2Proof.Machine.step t2 = .next t3 ∧
      t1.ifid.instr = s.instrMem.read s.pc.toNat ∧ t2.idex.instr = s.instrMem.read s.pc.toNat ∧
      t3.exmem.instr = s.instrMem.read s.pc.toNat ∧
      t3.older.reg = u.reg ∧ t3.older.dataMem = u.dataMem ∧
      (u.halted = false →
        u.pc = if t3.exmem.branchTaken then t3.exmem.branchTarget else s.pc + 1)

/-- R82 to R90, R94: a word placed by `withFetchWord`, on whatever state, is fetched by the very next
step. If it decodes to `i` and `exec i` answers, the steps from there carry it alone in front: IFID,
IDEX, EXMEM and MEMWB hold it in turn, the fourth step leaves the data memory and the fifth the
registers that `exec i` gives. On the state after reset only the instruction memory is changed. What
`withFetchWord` sets, and the program-order view, are the model's choices (log 8, log 1). -/
def Obligations.PlacedWordRunsFromTheNextStep : Prop :=
  (∀ (s : State) (w : Word), ∃ t, Sys2Proof.Machine.step (s.withFetchWord 32 w.toNat) = .next t ∧
    t.ifid.instr = w) ∧
  (∀ n w : Nat, State.reset.withFetchWord n w =
    { State.reset with instrMem := (State.reset.withFetchWord n w).instrMem }) ∧
  ∀ (s u : State) (w : Word) (i : Instr), s.pc.toNat % 65536 + 3 ≤ 65535 → decode w = .ok i →
    exec i (s.withFetchWord 32 w.toNat) = .next u →
    ∃ t1 t2 t3 t4, Sys2Proof.Machine.step (s.withFetchWord 32 w.toNat) = .next t1 ∧
      Sys2Proof.Machine.step t1 = .next t2 ∧ Sys2Proof.Machine.step t2 = .next t3 ∧
      Sys2Proof.Machine.step t3 = .next t4 ∧
      t1.ifid.instr = w ∧ t2.idex.instr = w ∧ t3.exmem.instr = w ∧ t4.memwb.instr = w ∧
      t4.dataMem = u.dataMem ∧
      ∀ t5, Sys2Proof.Machine.step t4 = .next t5 → t5.reg = u.reg

/-- R96: in every state whose operands are coherent, one cycle carries the instruction in IDEX out as
`exec` says: seen past it, registers, data memory and next address are those `exec` gives from the
state seen before it; an unrecognised word or a bubble changes nothing. The program-order view is the model's
choice (log 1). -/
def Obligations.CycleCarriesOutInstructionInExecute : Prop :=
  ∀ (p : Params) (s t : State), s.halted = false → (redirect s && p.squashExecute) = false →
    s.operandsCoherent → s.idex.offset = sext16 (fieldImm s.idex.instr) →
    cycle p s = .next t →
    (∀ (i : Instr) (u : State), decode s.idex.instr = .ok i →
      exec i { s.older with pc := s.idex.pcPlus1 - 1 } = .next u →
      t.older.reg = u.reg ∧ t.older.dataMem = u.dataMem ∧
      ((opcode s.idex.instr).toNat ≠ 6 →
        u.pc = if t.exmem.branchTaken then t.exmem.branchTarget else s.idex.pcPlus1)) ∧
    (∀ e, decode s.idex.instr = .error e →
      t.older.reg = s.older.reg ∧ t.older.dataMem = s.older.dataMem ∧
      t.exmem.branchTaken = false)

/-- R93, R96, R101, R103: an instruction whose own effect is a FAULT stops the machine, once it has been
executed and if the instruction in MEMWB then is no `halt` and does not fault itself: a `lw` or `sw` with
that fault in the next cycle; an `add` or `nor` with it in the cycle after that, unless the next cycle
already stops on a fetch outside the memory. The program-order view (`exec`, `State.older`) is the
model's choice (log 1); the faults and their order are the spec's decisions D7, D8, D9 and D16 (log 3,
log 16). -/
def Obligations.FaultOfInstructionStopsTheMachine : Prop :=
  ∀ (p : Params) (s t : State) (i : Instr) (f : Fault), s.halted = false →
    (redirect s && p.squashExecute) = false → s.operandsCoherent →
    s.idex.offset = sext16 (fieldImm s.idex.instr) → cycle p s = .next t →
    decode s.idex.instr = .ok i →
    exec i { s.older with pc := s.idex.pcPlus1 - 1 } = .fault f →
    t.halted = false → ¬ t.writebackFaults →
    (opcode s.idex.instr).toNat ≤ 3 ∧
    ((opcode s.idex.instr).toNat = 2 ∨ (opcode s.idex.instr).toNat = 3 → cycle p t = .fault f) ∧
    ((opcode s.idex.instr).toNat ≤ 1 →
      cycle p t = .fault (.fetchAddressOutOfRange t.pc) ∨
      ∃ u, cycle p t = .next u ∧ cycle p u = .fault f)

/-- R96: the pipelined machine computes what the program-order reading of its program computes: every
run from a state with nothing in flight that ends halted has the registers and the data memory of a
program-order run that ends halted, for both values of `SQUASH_EXECUTE`. The program-order machine is
the model's own (log 1). -/
def Obligations.HaltedRunMatchesProgramOrder : Prop :=
  ∀ (p : Params) (s t : State) (k : Nat), p.lwlwFarDrop = false → s.drained →
    runCycles p k s = .next t → t.halted = true →
    ∃ n q, programRun p n { state := s, slot := none } = .next q ∧ q.state.halted = true ∧
      q.state.reg = t.reg ∧ q.state.dataMem = t.dataMem
end

