-- ==== Sys2Proof/Laws/Codec.lean ====
section
/-!
SUPPORT. The laws of the codec: the fields as numbers (R46 to R49), the fields of a packed word, and
what the decoder answers for each value of the opcode field (R47, R52).
-/

namespace Sys2Proof.Laws

open Sys2Proof Sys2Proof.Machine

/-- The packed word as a number: the four fields at bits 22, 19, 16 and 0 (R46). -/
theorem packFields_toNat (op : BitVec 10) (a b : RegNum) (imm : Imm16) :
    (packFields op a b imm).toNat =
      op.toNat * 2 ^ 22 + a.toNat * 2 ^ 19 + b.toNat * 2 ^ 16 + imm.toNat := by
  have ha := a.isLt
  have hb := b.isLt
  have hi := imm.isLt
  show (((op ++ a) ++ b) ++ imm : BitVec (10 + 3 + 3 + 16)).toNat = _
  rw [BitVec.toNat_append, BitVec.toNat_append, BitVec.toNat_append,
    ← Nat.shiftLeft_add_eq_or_of_lt ha, ← Nat.shiftLeft_add_eq_or_of_lt hb,
    ← Nat.shiftLeft_add_eq_or_of_lt hi]
  simp only [Nat.shiftLeft_eq]
  omega

theorem opcode_toNat (w : Word) : (opcode w).toNat = w.toNat / 2 ^ 22 := by
  have := w.isLt
  simp only [opcode, BitVec.extractLsb'_toNat, Nat.shiftRight_eq_div_pow]
  omega

theorem fieldA_toNat (w : Word) : (fieldA w).toNat = w.toNat / 2 ^ 19 % 8 := by
  simp only [fieldA, BitVec.extractLsb'_toNat, Nat.shiftRight_eq_div_pow]

theorem fieldB_toNat (w : Word) : (fieldB w).toNat = w.toNat / 2 ^ 16 % 8 := by
  simp only [fieldB, BitVec.extractLsb'_toNat, Nat.shiftRight_eq_div_pow]

theorem fieldImm_toNat (w : Word) : (fieldImm w).toNat = w.toNat % 2 ^ 16 := by
  simp [fieldImm, BitVec.extractLsb'_toNat]

theorem opcode_pack (op : BitVec 10) (a b : RegNum) (imm : Imm16) :
    opcode (packFields op a b imm) = op := by
  apply BitVec.eq_of_toNat_eq
  have ha := a.isLt; have hb := b.isLt; have hi := imm.isLt
  rw [opcode_toNat, packFields_toNat]
  omega

theorem fieldA_pack (op : BitVec 10) (a b : RegNum) (imm : Imm16) :
    fieldA (packFields op a b imm) = a := by
  apply BitVec.eq_of_toNat_eq
  have ha := a.isLt; have hb := b.isLt; have hi := imm.isLt
  rw [fieldA_toNat, packFields_toNat]
  omega

theorem fieldB_pack (op : BitVec 10) (a b : RegNum) (imm : Imm16) :
    fieldB (packFields op a b imm) = b := by
  apply BitVec.eq_of_toNat_eq
  have ha := a.isLt; have hb := b.isLt; have hi := imm.isLt
  rw [fieldB_toNat, packFields_toNat]
  omega

theorem fieldImm_pack (op : BitVec 10) (a b : RegNum) (imm : Imm16) :
    fieldImm (packFields op a b imm) = imm := by
  apply BitVec.eq_of_toNat_eq
  have ha := a.isLt; have hb := b.isLt; have hi := imm.isLt
  rw [fieldImm_toNat, packFields_toNat]
  omega

/-- Everything the decoder can answer, by the value of the opcode field (R47, R52). -/
theorem decode_cases (w : Word) :
    ((opcode w).toNat = 0 ∧ decode w = .ok (.add (fieldA w) (fieldB w) (fieldImm w))) ∨
    ((opcode w).toNat = 1 ∧ decode w = .ok (.nor (fieldA w) (fieldB w) (fieldImm w))) ∨
    ((opcode w).toNat = 2 ∧ decode w = .ok (.lw (fieldA w) (fieldB w) (fieldImm w))) ∨
    ((opcode w).toNat = 3 ∧ decode w = .ok (.sw (fieldA w) (fieldB w) (fieldImm w))) ∨
    ((opcode w).toNat = 4 ∧ decode w = .ok (.beq (fieldA w) (fieldB w) (fieldImm w))) ∨
    ((opcode w).toNat = 5 ∧ decode w = .ok (.jalr (fieldA w) (fieldB w) (fieldImm w))) ∨
    ((opcode w).toNat = 6 ∧ decode w = .ok (.halt (fieldA w) (fieldB w) (fieldImm w))) ∨
    ((opcode w).toNat = 7 ∧ decode w = .ok (.noop (fieldA w) (fieldB w) (fieldImm w))) ∨
    (7 < (opcode w).toNat ∧ decode w = .error (.unrecognisedOpcode (opcode w))) := by
  unfold decode
  split <;> simp_all
  omega

/-- The destination of a word, by its opcode field (R61). -/
theorem destOf_cases (w : Word) :
    ((opcode w).toNat ≤ 1 ∧ destOf w = some (fieldImm w)) ∨
    ((opcode w).toNat = 2 ∧ destOf w = some (regIndex (fieldB w))) ∨
    (2 < (opcode w).toNat ∧ destOf w = none) := by
  rcases decode_cases w with ⟨h, e⟩ | ⟨h, e⟩ | ⟨h, e⟩ | ⟨h, e⟩ | ⟨h, e⟩ | ⟨h, e⟩ | ⟨h, e⟩ | ⟨h, e⟩ | ⟨h, e⟩ <;>
    simp [destOf, e, instrDest, h]; omega

theorem opcode_eq_iff (w : Word) (n : BitVec 10) : (opcode w == n) = true ↔ (opcode w).toNat = n.toNat := by
  simp [BitVec.toNat_inj]

@[simp] theorem decode_noopWord : decode noopWord = .ok (.noop 0 0 0) := by decide
@[simp] theorem opcode_noopWord : opcode noopWord = 7#10 := by decide
@[simp] theorem destOf_noopWord : destOf noopWord = none := by decide
@[simp] theorem needsA_noopWord : needsA noopWord = false := by decide
@[simp] theorem needsB_noopWord : needsB noopWord = false := by decide

end Sys2Proof.Laws
end

