-- ==== Sys2Proof/Laws/Memory.lean ====
section
/-!
SUPPORT. The laws of the memory operations: reading after writing, writing leaves every other word
alone, every operation keeps the canonical form.
-/

namespace Sys2Proof.Machine

open Sys2Proof

theorem find_filter_same (c : List (Nat × Word)) (a : Nat) :
    Memory.find (c.filter (fun x => x.1 != a)) a = Memory.unlisted := by
  induction c with
  | nil => rfl
  | cons h t ih =>
    obtain ⟨k, x⟩ := h
    by_cases hk : k = a <;> simp [hk, Memory.find, ih]

theorem find_filter_other (c : List (Nat × Word)) {a b : Nat} (h : b ≠ a) :
    Memory.find (c.filter (fun x => x.1 != a)) b = Memory.find c b := by
  induction c with
  | nil => rfl
  | cons hd t ih =>
    obtain ⟨k, x⟩ := hd
    by_cases hk : k = a
    · subst hk; simp [Memory.find, ih, h.symm]
    · simp [hk, Memory.find, ih]

theorem find_insert_same (c : List (Nat × Word)) (a : Nat) (v : Word) :
    Memory.find (Memory.insert c a v) a = v := by
  induction c with
  | nil => simp [Memory.insert, Memory.find]
  | cons h t ih =>
    obtain ⟨k, x⟩ := h
    unfold Memory.insert
    split
    · next hlt => simp [Memory.find, ih, Nat.ne_of_lt hlt]
    · split <;> simp [Memory.find]

theorem find_insert_other (c : List (Nat × Word)) {a b : Nat} (v : Word) (h : b ≠ a) :
    Memory.find (Memory.insert c a v) b = Memory.find c b := by
  induction c with
  | nil => simp [Memory.insert, Memory.find, h.symm]
  | cons hd t ih =>
    obtain ⟨k, x⟩ := hd
    unfold Memory.insert
    split
    · simp [Memory.find, ih]
    · split
      · next _ he => subst he; simp [Memory.find, h.symm]
      · simp [Memory.find, h.symm]

/-- Reading the word just written gives it. -/
@[simp] theorem read_write_same (m : Memory) (a : Nat) (v : Word) : (m.write a v).read a = v := by
  unfold Memory.write Memory.read
  split
  · next h => simp [find_filter_same, h]
  · simp [find_insert_same]

/-- A write leaves every other word alone. -/
@[simp] theorem read_write_other (m : Memory) {a b : Nat} (v : Word) (h : b ≠ a) :
    (m.write a v).read b = m.read b := by
  unfold Memory.write Memory.read
  split
  · simp [find_filter_other _ h]
  · simp [find_insert_other _ _ h]

theorem mem_insert {c : List (Nat × Word)} {a : Nat} {v : Word} {x : Nat × Word}
    (h : x ∈ Memory.insert c a v) : x = (a, v) ∨ x ∈ c := by
  induction c with
  | nil => simpa [Memory.insert] using h
  | cons hd t ih =>
    obtain ⟨k, y⟩ := hd
    unfold Memory.insert at h
    split at h
    · rcases List.mem_cons.mp h with h | h
      · simp [h]
      · rcases ih h with h | h <;> simp [h]
    · split at h
      · rcases List.mem_cons.mp h with h | h <;> simp [h]
      · simpa using h

theorem insert_pairwise {c : List (Nat × Word)} {a : Nat} {v : Word}
    (h : c.Pairwise (fun x y => x.1 < y.1)) :
    (Memory.insert c a v).Pairwise (fun x y => x.1 < y.1) := by
  induction c with
  | nil => simp [Memory.insert]
  | cons hd t ih =>
    obtain ⟨k, y⟩ := hd
    rw [List.pairwise_cons] at h
    unfold Memory.insert
    split
    · next hlt =>
      refine List.pairwise_cons.mpr ⟨fun x hx => ?_, ih h.2⟩
      rcases mem_insert hx with rfl | hx
      · exact hlt
      · exact h.1 x hx
    · split
      · next _ he => subst he; exact List.pairwise_cons.mpr h
      · next h1 h2 =>
        refine List.pairwise_cons.mpr ⟨fun x hx => ?_, List.pairwise_cons.mpr h⟩
        have hk : a < k := by omega
        rcases List.mem_cons.mp hx with rfl | hx
        · exact hk
        · exact lt_trans hk (h.1 x hx)

/-- A write inside the memory keeps the canonical form. -/
theorem write_wf {m : Memory} (hm : m.wf) {a : Nat} (ha : a < Config.memWords) (v : Word) :
    (m.write a v).wf := by
  unfold Memory.write
  split
  · exact ⟨hm.1.filter _, fun c hc => hm.2 c (List.mem_filter.mp hc).1⟩
  · next hv =>
    refine ⟨insert_pairwise hm.1, fun c hc => ?_⟩
    rcases mem_insert hc with rfl | hc
    · exact ⟨ha, hv⟩
    · exact hm.2 c hc

/-- R34, R35: inside the memory is 0..65535. -/
theorem inRange_of_le {a : Word} (h : a.toNat ≤ 65535) : inRange a = true :=
  decide_eq_true (show a.toNat < 65536 by omega)

theorem inRange_of_gt {a : Word} (h : 65535 < a.toNat) : inRange a = false :=
  decide_eq_false (show ¬ a.toNat < 65536 by omega)

/-- What `memWrite` can do (R34): it succeeds exactly inside the memory, with the one word changed. -/
theorem memWrite_cases (m : Memory) (a v : Word) :
    (a.toNat < Config.memWords ∧ memWrite m a v = .ok (m.write a.toNat v)) ∨
    (Config.memWords ≤ a.toNat ∧ memWrite m a v = .error (.dataAddressOutOfRange a)) := by
  by_cases h : a.toNat < Config.memWords
  · exact .inl ⟨h, by simp [memWrite, inRange, h]⟩
  · exact .inr ⟨by omega, by simp [memWrite, inRange, h]⟩

/-- What `memRead` can do (R34). -/
theorem memRead_cases (m : Memory) (a : Word) :
    (a.toNat < Config.memWords ∧ memRead m a = .ok (m.read a.toNat)) ∨
    (Config.memWords ≤ a.toNat ∧ memRead m a = .error (.dataAddressOutOfRange a)) := by
  by_cases h : a.toNat < Config.memWords
  · exact .inl ⟨h, by simp [memRead, inRange, h]⟩
  · exact .inr ⟨by omega, by simp [memRead, inRange, h]⟩

/-- What `iFetch` can do (R35). -/
theorem iFetch_cases (m : Memory) (a : Word) :
    (a.toNat < Config.memWords ∧ iFetch m a = .ok (m.read a.toNat)) ∨
    (Config.memWords ≤ a.toNat ∧ iFetch m a = .error (.fetchAddressOutOfRange a)) := by
  by_cases h : a.toNat < Config.memWords
  · exact .inl ⟨h, by simp [iFetch, inRange, h]⟩
  · exact .inr ⟨by omega, by simp [iFetch, inRange, h]⟩

/-- `memWrite` keeps the canonical form. -/
theorem memWrite_wf {m m' : Memory} {a v : Word} (hm : m.wf) (h : memWrite m a v = .ok m') :
    m'.wf := by
  rcases memWrite_cases m a v with ⟨ha, e⟩ | ⟨_, e⟩
  · rw [e] at h; cases h; exact write_wf hm ha v
  · rw [e] at h; cases h

/-- The memories of the reset state are in canonical form. -/
theorem reset_wf : State.reset.instrMem.wf ∧ State.reset.dataMem.wf := by decide

theorem mem_imageCells {image : List Word} {a : Nat} {c : Nat × Word}
    (h : c ∈ imageCells a image) :
    a ≤ c.1 ∧ c.1 < a + image.length ∧ c.2 ≠ Memory.unlisted := by
  induction image generalizing a with
  | nil => simp [imageCells] at h
  | cons w rest ih =>
    unfold imageCells at h
    split at h
    · obtain ⟨h1, h2, h3⟩ := ih h
      exact ⟨by omega, by simp only [List.length_cons]; omega, h3⟩
    · next hw =>
      rcases List.mem_cons.mp h with rfl | h
      · exact ⟨le_refl _, by simp, hw⟩
      · obtain ⟨h1, h2, h3⟩ := ih h
        exact ⟨by omega, by simp only [List.length_cons]; omega, h3⟩

theorem imageCells_pairwise (image : List Word) (a : Nat) :
    (imageCells a image).Pairwise (fun x y => x.1 < y.1) := by
  induction image generalizing a with
  | nil => simp [imageCells]
  | cons w rest ih =>
    unfold imageCells
    split
    · exact ih _
    · exact List.pairwise_cons.mpr ⟨fun c hc => (mem_imageCells hc).1, ih _⟩

/-- The memory of an image that fits is in canonical form. -/
theorem ofImage_wf {image : List Word} (h : image.length ≤ Config.memWords) :
    (Memory.ofImage image).wf :=
  ⟨imageCells_pairwise image 0, fun c hc => by
    obtain ⟨_, h2, h3⟩ := mem_imageCells hc
    exact ⟨by omega, h3⟩⟩

end Sys2Proof.Machine
end

