-- ==== Sys2Proof/Laws/Registers.lean ====
section
/-!
SUPPORT. The laws of the register file: what a write can do, reading after writing (R10, R11, R90).
-/

namespace Sys2Proof.Machine

open Sys2Proof

@[simp] theorem regIndex_toNat (r : RegNum) : (regIndex r).toNat = r.toNat := by
  have := r.isLt
  simp [regIndex, BitVec.toNat_setWidth]
  omega

theorem regIndex_lt (r : RegNum) : (regIndex r).toNat < 8 := by
  rw [regIndex_toNat]; exact r.isLt

@[simp] theorem regIndex_inj {r q : RegNum} : regIndex r = regIndex q ↔ r = q := by
  constructor
  · intro h
    have := congrArg BitVec.toNat h
    simpa [BitVec.toNat_inj] using this
  · rintro rfl; rfl

/-- What `writeReg` can do (R90, R56): write the one register, or fault above 7. -/
theorem writeReg_cases (regs : Vector Word 8) (d : Imm16) (v : Word) :
    (∃ h : d.toNat < 8, writeReg regs d v = .ok (regs.set d.toNat v h)) ∨
    (8 ≤ d.toNat ∧ writeReg regs d v = .error (.destinationOutOfRange d)) := by
  by_cases h : d.toNat < 8
  · exact .inl ⟨h, by simp [writeReg, h]⟩
  · exact .inr ⟨by omega, by simp [writeReg, h]⟩

/-- Reading a register after a write: the value for the register written, the old one otherwise. -/
theorem readReg_set (regs : Vector Word 8) (d : Nat) (h : d < 8) (v : Word) (r : RegNum) :
    readReg (regs.set d v h) r = if d = r.toNat then v else readReg regs r := by
  simp [readReg, Vector.getElem_set]

/-- Every register number can be written, register 0 as any other (R11). -/
theorem writeReg_regIndex (regs : Vector Word 8) (r : RegNum) (v : Word) :
    writeReg regs (regIndex r) v = .ok (regs.set r.toNat v r.isLt) := by
  have := r.isLt
  simp [writeReg, this]

/-- Two register files that read the same are equal. -/
theorem regs_ext {x y : Vector Word 8} (h : ∀ r : RegNum, readReg x r = readReg y r) : x = y := by
  apply Vector.ext
  intro i hi
  have := h (BitVec.ofNat 3 i)
  have hm : i % 8 = i := Nat.mod_eq_of_lt hi
  simpa [readReg, BitVec.toNat_ofNat, hm] using this

end Sys2Proof.Machine
end

