-- ==== Sys2Proof/Laws/State.lean ====
section
/-!
SUPPORT. The small lemmas of the state: one per field per update the model makes, and the fields of
the reset state and of the empty latches (R26, R28).
-/

namespace Sys2Proof.Machine

open Sys2Proof Sys2Proof.Config

/-! ### The register, memory and pc updates of the program-order effects -/

section Updates
variable (s : State) (pc : Word) (regs : Vector Word 8) (m : Memory) (l : MemWbLatch)

@[simp] theorem withPc_reg : ({ s with pc := pc } : State).reg = s.reg := rfl
@[simp] theorem withPc_cycles : ({ s with pc := pc } : State).cycles = s.cycles := rfl
@[simp] theorem withPc_instrMem : ({ s with pc := pc } : State).instrMem = s.instrMem := rfl
@[simp] theorem withPc_dataMem : ({ s with pc := pc } : State).dataMem = s.dataMem := rfl
@[simp] theorem withPc_memwb : ({ s with pc := pc } : State).memwb = s.memwb := rfl
@[simp] theorem withPc_halted : ({ s with pc := pc } : State).halted = s.halted := rfl
@[simp] theorem withReg_dataMem : ({ s with reg := regs, pc := pc } : State).dataMem = s.dataMem := rfl
@[simp] theorem withReg_instrMem : ({ s with reg := regs, pc := pc } : State).instrMem = s.instrMem := rfl
@[simp] theorem withReg_memwb : ({ s with reg := regs, pc := pc } : State).memwb = s.memwb := rfl
@[simp] theorem withData_reg : ({ s with dataMem := m, pc := pc } : State).reg = s.reg := rfl
@[simp] theorem withData_instrMem : ({ s with dataMem := m, pc := pc } : State).instrMem = s.instrMem := rfl
@[simp] theorem withData_memwb : ({ s with dataMem := m, pc := pc } : State).memwb = s.memwb := rfl
@[simp] theorem withMemWb_reg : ({ s with memwb := l } : State).reg = s.reg := rfl
@[simp] theorem withMemWb_dataMem : ({ s with memwb := l } : State).dataMem = s.dataMem := rfl
@[simp] theorem withMemWb_instrMem : ({ s with memwb := l } : State).instrMem = s.instrMem := rfl

end Updates

/-! ### The program-order view -/

section Older
variable (s : State)

@[simp] theorem older_pc : s.older.pc = s.pc := rfl
@[simp] theorem older_cycles : s.older.cycles = s.cycles := rfl
@[simp] theorem older_instrMem : s.older.instrMem = s.instrMem := rfl
@[simp] theorem older_memwb : s.older.memwb = s.memwb := rfl
@[simp] theorem older_reg : s.older.reg =
    regsAfter s.exmem.instr (regsAfter s.memwb.instr s.reg s.memwb.writeData) (memoryAfter s).1 := rfl
@[simp] theorem older_dataMem : s.older.dataMem = (memoryAfter s).2 := rfl

end Older

/-! ### The committed state of a cycle (R92) -/

section Commit
variable (p : Params) (s : State) (regs : Vector Word 8) (m : MemWbLatch × Memory) (f : FrontEnd)

@[simp] theorem commit_pc : (commit p s regs m f).pc = f.pc := rfl
@[simp] theorem commit_reg : (commit p s regs m f).reg = regs := rfl
@[simp] theorem commit_cycles : (commit p s regs m f).cycles = s.cycles + 1 := rfl
@[simp] theorem commit_instrMem : (commit p s regs m f).instrMem = s.instrMem := rfl
@[simp] theorem commit_dataMem : (commit p s regs m f).dataMem = m.2 := rfl
@[simp] theorem commit_progLen : (commit p s regs m f).progLen = s.progLen := rfl
@[simp] theorem commit_ifid : (commit p s regs m f).ifid = f.ifid := rfl
@[simp] theorem commit_idex : (commit p s regs m f).idex = f.idex := rfl
@[simp] theorem commit_exmem : (commit p s regs m f).exmem = nextExMem p s := rfl
@[simp] theorem commit_memwb : (commit p s regs m f).memwb = m.1 := rfl
@[simp] theorem commit_wbend : (commit p s regs m f).wbend = nextWbEnd s := rfl

end Commit

/-! ### The stages' latches, field by field -/

section Stages
variable (p : Params) (s : State)

@[simp] theorem executeStage_instr : (executeStage s).instr = s.idex.instr := rfl
@[simp] theorem executeStage_aluResult : (executeStage s).aluResult =
    aluResultOf s.idex.instr (operandA s) (operandB s) s.idex.offset := rfl
@[simp] theorem executeStage_readRegB : (executeStage s).readRegB = operandB s := rfl
@[simp] theorem executeStage_branchTaken : (executeStage s).branchTaken =
    (branchUnit s.idex.instr (operandA s) (operandB s) s.idex.pcPlus1 s.idex.offset).1 := rfl
@[simp] theorem executeStage_branchTarget : (executeStage s).branchTarget =
    (branchUnit s.idex.instr (operandA s) (operandB s) s.idex.pcPlus1 s.idex.offset).2 := rfl
@[simp] theorem executeStage_hazA : (executeStage s).hazA = s.idex.hazA := rfl
@[simp] theorem executeStage_hazB : (executeStage s).hazB = s.idex.hazB := rfl
@[simp] theorem decodeStage_instr : (decodeStage p s).instr = s.ifid.instr := rfl
@[simp] theorem decodeStage_pcPlus1 : (decodeStage p s).pcPlus1 = s.ifid.pcPlus1 := rfl
@[simp] theorem decodeStage_readRegA :
    (decodeStage p s).readRegA = readReg s.reg (fieldA s.ifid.instr) := rfl
@[simp] theorem decodeStage_readRegB :
    (decodeStage p s).readRegB = readReg s.reg (fieldB s.ifid.instr) := rfl
@[simp] theorem decodeStage_offset :
    (decodeStage p s).offset = sext16 (fieldImm s.ifid.instr) := rfl
@[simp] theorem decodeStage_hazA :
    (decodeStage p s).hazA = descriptorA p s s.ifid.instr := rfl
@[simp] theorem decodeStage_hazB :
    (decodeStage p s).hazB = descriptorB p s s.ifid.instr := rfl
@[simp] theorem nextWbEnd_instr : (nextWbEnd s).instr = s.memwb.instr := rfl
@[simp] theorem nextWbEnd_writeData : (nextWbEnd s).writeData = s.memwb.writeData := rfl
@[simp] theorem nextWbEnd_hazA : (nextWbEnd s).hazA = s.memwb.hazA := rfl
@[simp] theorem nextWbEnd_hazB : (nextWbEnd s).hazB = s.memwb.hazB := rfl

end Stages

/-! ### The empty latches and the reset state -/

@[simp] theorem emptyIfId_instr : IfIdLatch.empty.instr = noopWord := rfl
@[simp] theorem emptyIfId_pcPlus1 : IfIdLatch.empty.pcPlus1 = 0 := rfl
@[simp] theorem emptyIdEx_instr : IdExLatch.empty.instr = noopWord := rfl
@[simp] theorem emptyIdEx_pcPlus1 : IdExLatch.empty.pcPlus1 = 0 := rfl
@[simp] theorem emptyIdEx_hazA : IdExLatch.empty.hazA = .clear := rfl
@[simp] theorem emptyIdEx_hazB : IdExLatch.empty.hazB = .clear := rfl
@[simp] theorem emptyExMem_instr : ExMemLatch.empty.instr = noopWord := rfl
@[simp] theorem emptyExMem_branchTaken : ExMemLatch.empty.branchTaken = false := rfl
@[simp] theorem emptyExMem_branchTarget : ExMemLatch.empty.branchTarget = 0 := rfl
@[simp] theorem emptyExMem_aluResult : ExMemLatch.empty.aluResult = 0 := rfl
@[simp] theorem emptyExMem_readRegB : ExMemLatch.empty.readRegB = 0 := rfl
@[simp] theorem emptyExMem_hazA : ExMemLatch.empty.hazA = .clear := rfl
@[simp] theorem emptyExMem_hazB : ExMemLatch.empty.hazB = .clear := rfl
@[simp] theorem emptyMemWb_instr : MemWbLatch.empty.instr = noopWord := rfl
@[simp] theorem emptyMemWb_writeData : MemWbLatch.empty.writeData = 0 := rfl

@[simp] theorem reset_pc : State.reset.pc = 0 := rfl
@[simp] theorem reset_cycles : State.reset.cycles = 0 := rfl
@[simp] theorem reset_instrMem : State.reset.instrMem = { cells := [] } := rfl
@[simp] theorem reset_dataMem : State.reset.dataMem = { cells := [] } := rfl
@[simp] theorem reset_ifid : State.reset.ifid = .empty := rfl
@[simp] theorem reset_idex : State.reset.idex = .empty := rfl
@[simp] theorem reset_exmem : State.reset.exmem = .empty := rfl
@[simp] theorem reset_memwb : State.reset.memwb = .empty := rfl
@[simp] theorem reset_wbend : State.reset.wbend = .empty := rfl

end Sys2Proof.Machine
end

