-- ==== Sys2Proof/Laws/Pipeline.lean ====
section
/-!
SUPPORT. What each shared operation of the cycle can do, said once: the scan's entries (R128), the
front end (R82), the memory stage (R88), writeback (R90) and the cycle itself (R94).
-/

namespace Sys2Proof.Machine

open Sys2Proof Sys2Proof.Config Sys2Proof.Laws

/-- What the memory stage can do when it answers: nothing, a load or a store (R88). -/
theorem memoryOf_ok {w : Word} {m : Memory} {a v : Word} {r : Word × Memory}
    (h : memoryOf w m a v = .ok r) :
    ((opcode w).toNat ≤ 1 ∧ r = (a, m)) ∨
    ((opcode w).toNat = 2 ∧ a.toNat < memWords ∧ r = (m.read a.toNat, m)) ∨
    ((opcode w).toNat = 3 ∧ a.toNat < memWords ∧ r = (0, m.write a.toNat v)) ∨
    (3 < (opcode w).toNat ∧ r = (0, m)) := by
  rcases decode_cases w with ⟨ho, e⟩ | ⟨ho, e⟩ | ⟨ho, e⟩ | ⟨ho, e⟩ | ⟨ho, e⟩ | ⟨ho, e⟩ | ⟨ho, e⟩ | ⟨ho, e⟩ | ⟨ho, e⟩ <;>
    simp only [memoryOf, e, instrMemory] at h
  case inr.inr.inl =>
    rcases memRead_cases m a with ⟨ha, hr⟩ | ⟨_, hr⟩ <;> rw [hr] at h <;> cases h
    exact .inr (.inl ⟨ho, ha, rfl⟩)
  case inr.inr.inr.inl =>
    rcases memWrite_cases m a v with ⟨ha, hr⟩ | ⟨_, hr⟩ <;> rw [hr] at h <;> cases h
    exact .inr (.inr (.inl ⟨ho, ha, rfl⟩))
  all_goals cases h; simp [ho] <;> omega

/-- Where the memory stage faults: a load or store outside the memory, and nowhere else (R88). -/
theorem memoryOf_error {w : Word} {m : Memory} {a v : Word} {f : Fault}
    (h : memoryOf w m a v = .error f) :
    ((opcode w).toNat = 2 ∨ (opcode w).toNat = 3) ∧ memWords ≤ a.toNat ∧
      f = .dataAddressOutOfRange a := by
  rcases decode_cases w with ⟨ho, e⟩ | ⟨ho, e⟩ | ⟨ho, e⟩ | ⟨ho, e⟩ | ⟨ho, e⟩ | ⟨ho, e⟩ | ⟨ho, e⟩ | ⟨ho, e⟩ | ⟨ho, e⟩ <;>
    simp only [memoryOf, e, instrMemory] at h
  case inr.inr.inl =>
    rcases memRead_cases m a with ⟨_, hr⟩ | ⟨ha, hr⟩ <;> rw [hr] at h <;> cases h
    exact ⟨.inl ho, ha, rfl⟩
  case inr.inr.inr.inl =>
    rcases memWrite_cases m a v with ⟨_, hr⟩ | ⟨ha, hr⟩ <;> rw [hr] at h <;> cases h
    exact ⟨.inr ho, ha, rfl⟩
  all_goals cases h

/-- What the memory stage of a cycle leaves (R88). -/
theorem memoryStage_ok {s : State} {m : MemWbLatch × Memory} (h : memoryStage s = .ok m) :
    memoryOf s.exmem.instr s.dataMem s.exmem.aluResult s.exmem.readRegB = .ok (m.1.writeData, m.2) ∧
      m.1.instr = s.exmem.instr ∧ m.1.hazA = s.exmem.hazA ∧ m.1.hazB = s.exmem.hazB := by
  unfold memoryStage at h
  cases e : memoryOf s.exmem.instr s.dataMem s.exmem.aluResult s.exmem.readRegB with
  | error f => rw [e] at h; cases h
  | ok r => rw [e] at h; cases h; exact ⟨rfl, rfl, rfl, rfl⟩

/-- What writeback can do when it answers: nothing, or one register (R90). -/
theorem writebackOf_ok {w : Word} {regs regs' : Vector Word 8} {v : Word}
    (h : writebackOf w regs v = .ok regs') :
    (destOf w = none ∧ regs' = regs) ∨
    (∃ d : Imm16, ∃ hd : d.toNat < 8, destOf w = some d ∧ regs' = regs.set d.toNat v hd) := by
  unfold writebackOf at h
  split at h
  · next d he =>
    rcases writeReg_cases regs d v with ⟨hd, hr⟩ | ⟨_, hr⟩ <;> rw [hr] at h <;> cases h
    exact .inr ⟨d, hd, he, rfl⟩
  · next he => cases h; exact .inl ⟨he, rfl⟩

/-- Where writeback faults: a destination index above 7, and nowhere else (R90). -/
theorem writebackOf_error {w : Word} {regs : Vector Word 8} {v : Word} {f : Fault}
    (h : writebackOf w regs v = .error f) :
    ∃ d : Imm16, destOf w = some d ∧ 8 ≤ d.toNat ∧ f = .destinationOutOfRange d := by
  unfold writebackOf at h
  split at h
  · next d he =>
    rcases writeReg_cases regs d v with ⟨_, hr⟩ | ⟨hd, hr⟩ <;> rw [hr] at h <;> cases h
    exact ⟨d, he, hd, rfl⟩
  · cases h

/-- The three cases of the front end (R82). -/
theorem frontEnd_ok {p : Params} {s : State} {f : FrontEnd} (h : frontEnd p s = .ok f) :
    (redirect s = true ∧ f = ⟨s.exmem.branchTarget, .empty, .empty⟩) ∨
    (redirect s = false ∧ stall p s = true ∧ f = ⟨s.pc, s.ifid, .empty⟩) ∨
    (redirect s = false ∧ stall p s = false ∧ s.pc.toNat < memWords ∧
      f = ⟨nextPc s.pc, ⟨s.instrMem.read s.pc.toNat, nextPc s.pc⟩, decodeStage p s⟩) := by
  unfold frontEnd at h
  split at h
  · next hr => cases h; exact .inl ⟨hr, rfl⟩
  · next hr =>
    split at h
    · next hs => cases h; exact .inr (.inl ⟨by simpa using hr, hs, rfl⟩)
    · next hs =>
      rcases iFetch_cases s.instrMem s.pc with ⟨ha, hf⟩ | ⟨_, hf⟩ <;> rw [hf] at h <;> cases h
      exact .inr (.inr ⟨by simpa using hr, by simpa using hs, ha, rfl⟩)

/-- Where the front end faults: a fetch outside the instruction memory, and nowhere else (R82). -/
theorem frontEnd_error {p : Params} {s : State} {f : Fault} (h : frontEnd p s = .error f) :
    redirect s = false ∧ stall p s = false ∧ memWords ≤ s.pc.toNat ∧
      f = .fetchAddressOutOfRange s.pc := by
  unfold frontEnd at h
  split at h
  · cases h
  · next hr =>
    split at h
    · cases h
    · next hs =>
      rcases iFetch_cases s.instrMem s.pc with ⟨_, hf⟩ | ⟨ha, hf⟩ <;> rw [hf] at h <;> cases h
      exact ⟨by simpa using hr, by simpa using hs, ha, rfl⟩

/-- Everything a cycle can do when it answers a next state: the machine is halted and stays, or every
stage answered and their results are committed (R81, R94). -/
theorem cycle_next {p : Params} {s t : State} (h : cycle p s = .next t) :
    (s.halted = true ∧ t = s) ∨
    (s.halted = false ∧ ∃ regs m f, writebackStage s = .ok regs ∧ memoryStage s = .ok m ∧
      frontEnd p s = .ok f ∧ t = commit p s regs m f) := by
  unfold cycle at h
  split at h
  · next hh => cases h; exact .inl ⟨hh, rfl⟩
  · next hh =>
    refine .inr ⟨by simpa using hh, ?_⟩
    cases hw : writebackStage s with
    | error f => simp [hw] at h
    | ok regs =>
      cases hm : memoryStage s with
      | error f => simp [hw, hm] at h
      | ok m =>
        cases hf : frontEnd p s with
        | error f => simp [hw, hm, hf] at h
        | ok f =>
          simp only [hw, hm, hf, Host.Outcome.next.injEq] at h
          exact ⟨regs, m, f, rfl, rfl, rfl, h.symm⟩

/-- A performed cycle whose stages all answer commits their results. -/
theorem cycle_of_stages {p : Params} {s : State} {regs : Vector Word 8} {m : MemWbLatch × Memory}
    {f : FrontEnd} (hh : s.halted = false) (hw : writebackStage s = .ok regs)
    (hm : memoryStage s = .ok m) (hf : frontEnd p s = .ok f) :
    cycle p s = .next (commit p s regs m f) := by
  simp [cycle, hh, hw, hm, hf]

end Sys2Proof.Machine
end

