-- ==== Sys2Proof/Laws/Effects.lean ====
section
/-!
SUPPORT. What each program-order completion can do, and what one entry of the hazard scan can answer.
-/

namespace Sys2Proof.Machine

open Sys2Proof Sys2Proof.Config Sys2Proof.Laws

/-- What the completion of a register-writing instruction can do (R62, R63, R67). -/
theorem completeReg_cases (s : State) (d : Imm16) (v : Word) :
    (∃ h : d.toNat < 8,
      completeReg s d v = .next { s with reg := s.reg.set d.toNat v h, pc := nextPc s.pc }) ∨
    (8 ≤ d.toNat ∧ completeReg s d v = .fault (.destinationOutOfRange d)) := by
  rcases writeReg_cases s.reg d v with ⟨h, e⟩ | ⟨h, e⟩
  · exact .inl ⟨h, by simp [completeReg, e]⟩
  · exact .inr ⟨h, by simp [completeReg, e]⟩

/-- What the completion of a store can do (R68). -/
theorem completeStore_cases (s : State) (a v : Word) :
    (a.toNat < memWords ∧
      completeStore s a v = .next { s with dataMem := s.dataMem.write a.toNat v, pc := nextPc s.pc }) ∨
    (memWords ≤ a.toNat ∧ completeStore s a v = .fault (.dataAddressOutOfRange a)) := by
  rcases memWrite_cases s.dataMem a v with ⟨h, e⟩ | ⟨h, e⟩
  · exact .inl ⟨h, by simp [completeStore, e]⟩
  · exact .inr ⟨h, by simp [completeStore, e]⟩

/-- What one entry of the scan answers: nothing unless it produces the register; then load-use for
the nearest load, nothing for the dropped case of R129, and forwarding otherwise (R128). -/
theorem scanEntry_eq (p : Params) (w : Word) (r : RegNum) (entry : Word) (tag : HazSrc) :
    scanEntry p w r entry tag =
      if destOf entry = some (regIndex r) then
        if (opcode entry).toNat = 2 then
          if tag = .ex then .loadUse
          else if tag = .wb ∧ isLoad w = true ∧ p.lwlwFarDrop = true then .none
          else .forward tag
        else .forward tag
      else .none := by
  rcases decode_cases entry with ⟨h, e⟩ | ⟨h, e⟩ | ⟨h, e⟩ | ⟨h, e⟩ | ⟨h, e⟩ | ⟨h, e⟩ | ⟨h, e⟩ | ⟨h, e⟩ | ⟨h, e⟩ <;>
    simp [scanEntry, destOf, e, instrDest, h]

/-- R129: the consumer is a load exactly when its opcode field is 2. -/
theorem isLoad_iff (w : Word) : isLoad w = true ↔ (opcode w).toNat = 2 := by
  rcases decode_cases w with ⟨h, e⟩ | ⟨h, e⟩ | ⟨h, e⟩ | ⟨h, e⟩ | ⟨h, e⟩ | ⟨h, e⟩ | ⟨h, e⟩ | ⟨h, e⟩ | ⟨h, e⟩ <;>
    simp [isLoad, e, h]
  omega

end Sys2Proof.Machine
end

