-- ==== Sys2Proof/Laws/PerInstr.lean ====
section
/-!
SUPPORT. The per-instruction family `OpcodeField`: the encoded word carries the instruction's opcode
number in bits 31:22, and its four fields where R46 puts them.
-/

namespace Sys2Proof.Laws

open Sys2Proof

/-- The opcode number R52 gives each instruction. -/
def opcodeNumber : Instr → BitVec 10
  | .add _ _ _  => 0
  | .nor _ _ _  => 1
  | .lw _ _ _   => 2
  | .sw _ _ _   => 3
  | .beq _ _ _  => 4
  | .jalr _ _ _ => 5
  | .halt _ _ _ => 6
  | .noop _ _ _ => 7

/-- The encoded word's opcode field is the instruction's number (R47, R52). -/
def OpcodeField.Statement (i : Instr) : Prop := opcode (encode i) = opcodeNumber i

theorem OpcodeField.add (a b : RegNum) (d : Imm16) : OpcodeField.Statement (.add a b d) :=
  opcode_pack 0 a b d
theorem OpcodeField.nor (a b : RegNum) (d : Imm16) : OpcodeField.Statement (.nor a b d) :=
  opcode_pack 1 a b d
theorem OpcodeField.lw (a b : RegNum) (off : Imm16) : OpcodeField.Statement (.lw a b off) :=
  opcode_pack 2 a b off
theorem OpcodeField.sw (a b : RegNum) (off : Imm16) : OpcodeField.Statement (.sw a b off) :=
  opcode_pack 3 a b off
theorem OpcodeField.beq (a b : RegNum) (off : Imm16) : OpcodeField.Statement (.beq a b off) :=
  opcode_pack 4 a b off
theorem OpcodeField.jalr (a b : RegNum) (imm : Imm16) : OpcodeField.Statement (.jalr a b imm) :=
  opcode_pack 5 a b imm
theorem OpcodeField.halt (a b : RegNum) (imm : Imm16) : OpcodeField.Statement (.halt a b imm) :=
  opcode_pack 6 a b imm
theorem OpcodeField.noop (a b : RegNum) (imm : Imm16) : OpcodeField.Statement (.noop a b imm) :=
  opcode_pack 7 a b imm

end Sys2Proof.Laws
end

