-- ==== Sys2Proof/Laws/Placement.lean ====
section
/-!
SUPPORT. What `State.withFetchWord` leaves, field by field, and that it keeps the form of the memories.
-/

namespace Sys2Proof.Machine

open Sys2Proof Sys2Proof.Config

section
variable (s : State) (n w : Nat)

@[simp] theorem withFetchWord_pc_toNat : (s.withFetchWord n w).pc.toNat = s.pc.toNat % memWords := by
  simp only [State.withFetchWord, memWords, BitVec.toNat_ofNat]
  omega

@[simp] theorem withFetchWord_reg : (s.withFetchWord n w).reg = s.reg := rfl
@[simp] theorem withFetchWord_cycles : (s.withFetchWord n w).cycles = s.cycles := rfl
@[simp] theorem withFetchWord_dataMem : (s.withFetchWord n w).dataMem = s.dataMem := rfl
@[simp] theorem withFetchWord_progLen : (s.withFetchWord n w).progLen = s.progLen := rfl
@[simp] theorem withFetchWord_wbend : (s.withFetchWord n w).wbend = s.wbend := rfl

/-- The word stands at the pc. -/
@[simp] theorem withFetchWord_fetched :
    (s.withFetchWord n w).instrMem.read (s.withFetchWord n w).pc.toNat
      = BitVec.ofNat 32 (w % 2 ^ n) := by
  rw [withFetchWord_pc_toNat]
  exact read_write_same s.instrMem _ _

/-- Nothing else is in flight. -/
theorem withFetchWord_drained : (s.withFetchWord n w).drained := ⟨rfl, rfl, rfl, rfl⟩

/-- A placed word leaves canonical memories canonical. -/
theorem withFetchWord_memoriesWf (h : s.memoriesWf) : (s.withFetchWord n w).memoriesWf :=
  ⟨write_wf h.1 (Nat.mod_lt _ (by decide)) _, h.2⟩

end

end Sys2Proof.Machine
end

