-- ==== Sys2Proof/Tests/Slice0.lean ====
section
/-!
SUPPORT. Own tests, each on one small state: the well-formedness smoke, decoding of words written out
from 30_encoding.md section 6, at most two tests for each instruction, and one witness for every
statement that has hypotheses, at boundary values of its clauses. Expected values are computed by hand
from the rules named.
-/

namespace Sys2Proof.Tests

open Sys2Proof Sys2Proof.Machine Sys2Proof.Config

/-! ### Helpers -/

/-- The next state, the state after reset where there is none. -/
def outState : Host.Outcome State Fault Refusal → State
  | .next t => t
  | .fault _ => State.reset
  | .refused _ => State.reset

/-- One cycle under the default parameters, as a state. -/
def after (s : State) : State := outState (cycle defaultParams s)

/-- One instruction in program order, as a state. -/
def did (i : Instr) (s : State) : State := outState (exec i s)

/-- Reset with x1 = `a` and x2 = `b`. -/
def regs12 (a b : Word) : State := { State.reset with reg := (State.reset.reg.set 1 a).set 2 b }

/-- Reset with these four words in IFID, IDEX, EXMEM and MEMWB. -/
def pipe (f d x m : Word) : State :=
  { State.reset with
    ifid := { IfIdLatch.empty with instr := f }
    idex := { IdExLatch.empty with instr := d }
    exmem := { ExMemLatch.empty with instr := x }
    memwb := { MemWbLatch.empty with instr := m } }

/-- `add 1 2 3`, `lw 0 1 11`, `sw 0 3 13`, `beq 0 0 -5`, `jalr 1 2` (30_encoding.md section 6). -/
def addW : Word := 0x000A0003
def lwW : Word := 0x0081000B
def swW : Word := 0x00C3000D
def beqW : Word := 0x0100FFFB
def jalrW : Word := 0x014A0000

/-- A taken `beq` with target 4 in EXMEM, `d` in IDEX. -/
def taken (d : Word) : State :=
  { pipe noopWord d beqW noopWord with
    exmem := { ExMemLatch.empty with instr := beqW, branchTaken := true, branchTarget := 4 } }

/-- `add 1 2 3` in decode right behind `lw 0 1 11`: a load-use. -/
def loadThenAdd : State :=
  { pipe addW lwW noopWord noopWord with dataMem := { cells := [(0, 77)] } }

/-- `SQUASH_EXECUTE` true. -/
def squashing : Params := { squashExecute := true, lwlwFarDrop := false }

/-- `LWLW_FAR_DROP` true. -/
def dropping : Params := { squashExecute := false, lwlwFarDrop := true }

/-! ### Well-formedness -/

theorem test_wf_add_refuses_8 : Instr.wellFormed (.add 0 0 8) = false := by decide
theorem test_wf_add_refuses_65535 : Instr.wellFormed (.add 7 7 0xFFFF) = false := by decide
theorem test_wf_nor_refuses_8 : Instr.wellFormed (.nor 0 0 8) = false := by decide
theorem test_wf_accepts_7 :
    Instr.wellFormed (.add 7 7 7) = true ∧ Instr.wellFormed (.nor 7 7 7) = true ∧
    Instr.wellFormed (.lw 7 7 0xFFFF) = true := by decide

/-! ### Decoding (30_encoding.md section 6, and the table's match words) -/

theorem test_decode_add : decode 0b00000000000010100000000000000011#32 = .ok (.add 1 2 3) := by rfl
theorem test_decode_nor : decode 0b00000000010000000000000000000001#32 = .ok (.nor 0 0 1) := by rfl
theorem test_decode_lw : decode 0b00000000100000010000000000001011#32 = .ok (.lw 0 1 11) := by rfl
theorem test_decode_sw : decode 0b00000000110000110000000000001101#32 = .ok (.sw 0 3 13) := by rfl
theorem test_decode_beq :
    decode 0b00000001000000001111111111111011#32 = .ok (.beq 0 0 0xFFFB) := by rfl
theorem test_decode_jalr : decode 0b00000001010010100000000000000000#32 = .ok (.jalr 1 2 0) := by rfl
theorem test_decode_halt : decode 0b00000001100000000000000000000000#32 = .ok (.halt 0 0 0) := by rfl
theorem test_decode_noop : decode 0b00000001110000000000000000000000#32 = .ok (.noop 0 0 0) := by rfl
theorem test_decode_bit25 : decode 0x02090003#32 = .error (.unrecognisedOpcode 8) := by rfl
theorem test_decode_all_ones : decode 0xFFFFFFFF#32 = .error (.unrecognisedOpcode 1023) := by rfl
theorem test_table_word : decodeTableWord 32 0x00C3000D = some (.sw 0 3 13) := by decide
theorem test_table_word_refused : decodeTableWord 32 0x02090003 = none := by decide
theorem test_encode_beq : encode (.beq 0 0 0xFFFB) = 0x0100FFFB#32 := by decide
theorem test_fetch_word_runs :
    (after (State.reset.withFetchWord 32 0x00C3000D)).ifid.instr = 0x00C3000D#32 := by decide

/-! ### Each instruction in program order -/

theorem test_add_wraps :
    readReg (did (.add 1 2 2) (regs12 0xFFFFFFFF 3)).reg 2 = 2#32 := by decide
theorem test_add_faults_at_8 : exec (.add 1 2 8) State.reset = .fault (.destinationOutOfRange 8) := by rfl
theorem test_nor :
    readReg (did (.nor 1 2 7) (regs12 0x12345678 0x0F0F0F0F)).reg 7 = 0xE0C0A080#32 := by decide
theorem test_nor_register_0 : readReg (did (.nor 0 0 0) State.reset).reg 0 = 0xFFFFFFFF#32 := by decide
theorem test_lw_negative_offset :
    readReg (did (.lw 1 2 0xFFFE) { regs12 6 9 with dataMem := { cells := [(4, 77)] } }).reg 2
      = 77#32 := by decide
theorem test_lw_faults_below_0 :
    exec (.lw 0 1 0xFFFF) State.reset = .fault (.dataAddressOutOfRange 0xFFFFFFFF) := by rfl
theorem test_sw_top_of_memory :
    (did (.sw 1 2 0x7FFF) (regs12 0x8000 5)).dataMem.read 65535 = 5#32 := by decide
theorem test_sw_faults_above_top :
    exec (.sw 1 2 0) (regs12 0x10000 5) = .fault (.dataAddressOutOfRange 0x10000) := by rfl
theorem test_beq_back :
    (did (.beq 1 2 0xFFFB) { regs12 3 3 with pc := 6 }).pc = 2#32 := by decide
theorem test_beq_not_equal :
    (did (.beq 1 2 0xFFFB) { regs12 3 0x80000003 with pc := 6 }).pc = 7#32 := by decide
theorem test_jalr_links_nothing :
    (did (.jalr 1 2 0) (regs12 9 8)).pc = 1#32 ∧
    readReg (did (.jalr 1 2 0) (regs12 9 8)).reg 2 = 8#32 := by decide
theorem test_halt : (did (.halt 0 0 0) State.reset).halted = true := by decide
theorem test_halt_cycle_stays :
    cycle defaultParams (pipe addW addW addW haltWord) = .next (pipe addW addW addW haltWord) := by rfl
theorem test_noop : (did (.noop 7 7 0xFFFF) (regs12 9 8)).pc = 1#32 := by decide

/-! ### Witnesses: encoding -/

theorem test_witness_encodeOfDecode : decode addW = .ok (.add 1 2 3) := by rfl
theorem test_witness_opcodeField :
    (opcode 0x01FFFFFF#32).toNat = 7 ∧ (opcode 0x02000000#32).toNat = 8 := by decide
theorem test_witness_matchAndMask :
    0x003FFFFF#32 &&& 0xFFC00000#32 = 0x00000000#32 ∧
    0x007FFFFF#32 &&& 0xFFC00000#32 = 0x00400000#32 ∧
    0x00BFFFFF#32 &&& 0xFFC00000#32 = 0x00800000#32 ∧
    0x00FFFFFF#32 &&& 0xFFC00000#32 = 0x00C00000#32 ∧
    0x013FFFFF#32 &&& 0xFFC00000#32 = 0x01000000#32 ∧
    0x017FFFFF#32 &&& 0xFFC00000#32 = 0x01400000#32 ∧
    0x01BFFFFF#32 &&& 0xFFC00000#32 = 0x01800000#32 ∧
    0x01FFFFFF#32 &&& 0xFFC00000#32 = 0x01C00000#32 := by decide
theorem test_witness_offset :
    (0x7FFF#16).toNat / 2 ^ 15 = 0 ∧ (0x8000#16).toNat / 2 ^ 15 = 1 ∧
    decode lwW = .ok (.lw 0 1 11) ∧ decode swW = .ok (.sw 0 3 13) ∧
    decode beqW = .ok (.beq 0 0 0xFFFB) ∧ State.reset.halted = false ∧
    redirect State.reset = false ∧ stall defaultParams State.reset = false ∧
    cycle defaultParams State.reset = .next (after State.reset) :=
  ⟨by decide, by decide, rfl, rfl, rfl, rfl, rfl, rfl, rfl⟩

/-! ### Witnesses: reset and load -/

theorem test_witness_resetOfImage :
    ([haltWord] : List Word).length ≤ 65536 ∧ (List.replicate 65536 haltWord).length ≤ 65536 ∧
    (State.load [haltWord]).isSome = true :=
  ⟨by decide, Nat.le_of_eq List.length_replicate, rfl⟩
theorem test_witness_images :
    65536 < (List.replicate 65537 haltWord).length ∧
    (-(2 ^ 31) ≤ (-2147483648 : Int) ∧ (-2147483648 : Int) < 2 ^ 32) ∧
    (-(2 ^ 31) ≤ (4294967295 : Int) ∧ (4294967295 : Int) < 2 ^ 32) ∧
    ((-2147483649 : Int) < -(2 ^ 31)) ∧ (2 ^ 32 ≤ (4294967296 : Int)) :=
  ⟨Nat.lt_of_lt_of_eq (by decide : 65536 < 65537) List.length_replicate.symm,
    by decide, by decide, by decide, by decide⟩

/-! ### Witnesses: memory and registers -/

theorem test_witness_dataAccess :
    (0xFFFF#32).toNat ≤ 65535 ∧ 65535 < (0x10000#32).toNat ∧ (0x80000000#32).toInt < 0 ∧
    65535 < (0x80000000#32).toNat ∧ (0 : Nat) ≠ (0xFFFF#32).toNat := by decide
theorem test_witness_fetch_inside :
    let s := { State.reset with pc := 0xFFFF }
    s.halted = false ∧ redirect s = false ∧ stall defaultParams s = false ∧ s.pc.toNat ≤ 65535 ∧
    cycle defaultParams s = .next (after s) :=
  ⟨rfl, rfl, rfl, by decide, rfl⟩
theorem test_witness_fetch_outside :
    let s := { State.reset with pc := 0x10000 }
    s.halted = false ∧ redirect s = false ∧ stall defaultParams s = false ∧ 65535 < s.pc.toNat ∧
    ¬ s.writebackFaults ∧ ¬ s.memoryFaults ∧ s.fetchFaults defaultParams := by decide
theorem test_witness_no_fetch :
    (taken addW).halted = false ∧ redirect (taken addW) = true ∧
    cycle defaultParams (taken addW) = .next (after (taken addW)) ∧
    loadThenAdd.halted = false ∧ stall defaultParams loadThenAdd = true ∧
    cycle defaultParams loadThenAdd = .next (after loadThenAdd) :=
  ⟨rfl, rfl, rfl, rfl, rfl, rfl⟩

/-- `sw` of 9 to address 5 in EXMEM with `lw` of the same address behind it. -/
def storeThenLoad : State :=
  { pipe noopWord 0x00810005 swW noopWord with
    idex := { IdExLatch.empty with instr := 0x00810005, offset := 5 }
    exmem := { ExMemLatch.empty with instr := swW, aluResult := 5, readRegB := 9 } }

theorem test_witness_loadAfterStore :
    let s := storeThenLoad
    s.halted = false ∧ (after s).halted = false ∧ cycle defaultParams s = .next (after s) ∧
    cycle defaultParams (after s) = .next (after (after s)) ∧ (opcode s.exmem.instr).toNat = 3 ∧
    (opcode (after s).exmem.instr).toNat = 2 ∧ (after s).exmem.aluResult = s.exmem.aluResult ∧
    (after (after s)).memwb.writeData = 9#32 :=
  ⟨rfl, rfl, rfl, rfl, rfl, rfl, rfl, rfl⟩
theorem test_witness_storesNeverReachFetch :
    runCycles defaultParams 1 storeThenLoad = .next (after storeThenLoad) ∧
    (after storeThenLoad).halted = false ∧ redirect (after storeThenLoad) = false ∧
    stall defaultParams (after storeThenLoad) = false ∧
    cycle defaultParams (after storeThenLoad) = .next (after (after storeThenLoad)) ∧
    exec (.sw 1 2 0) (regs12 5 9) = .next (did (.sw 1 2 0) (regs12 5 9)) :=
  ⟨rfl, rfl, rfl, rfl, rfl, rfl⟩
theorem test_witness_memoriesCanonical :
    storeThenLoad.memoriesWf ∧
    Sys2Proof.Machine.step storeThenLoad = .next (after storeThenLoad) ∧
    (regs12 5 9).memoriesWf :=
  ⟨by decide, rfl, by decide⟩
theorem test_witness_equalReads :
    Memory.wf { cells := [(4, 77), (65535, 1)] } ∧
    ({ cells := [(4, 77)] } : Memory) = (({ cells := [] } : Memory).write 4 77) := by decide
theorem test_witness_writableRegister :
    let s := pipe noopWord noopWord noopWord 0x00000000
    s.halted = false ∧ cycle defaultParams s = .next (after s) ∧
    destOf s.memwb.instr = some (regIndex 0) ∧ (7 : RegNum) ≠ 0 ∧
    destOf (pipe noopWord noopWord noopWord 0x00000007).memwb.instr = some (regIndex 7) :=
  ⟨rfl, rfl, rfl, by decide, rfl⟩

/-! ### Witnesses: the program-order effects -/

theorem test_witness_add_nor :
    (7#16).toNat ≤ 7 ∧ (7#3).toNat = (7#16).toNat ∧ (0#3).toNat ≠ (7#16).toNat ∧
    exec (.add 1 2 7) (regs12 1 2) = .next (did (.add 1 2 7) (regs12 1 2)) ∧
    exec (.nor 1 2 7) (regs12 1 2) = .next (did (.nor 1 2 7) (regs12 1 2)) :=
  ⟨by decide, by decide, by decide, rfl, rfl⟩
theorem test_witness_lw_sw :
    (readReg (regs12 0x10000 2).reg 1 + sext16 0xFFFF).toNat ≤ 65535 ∧
    (effectiveAddress (readReg (regs12 0x10000 2).reg 1) (sext16 0xFFFF)).toNat ≤ 65535 ∧
    exec (.lw 1 2 0xFFFF) (regs12 0x10000 2) = .next (did (.lw 1 2 0xFFFF) (regs12 0x10000 2)) ∧
    exec (.sw 1 2 0xFFFF) (regs12 0x10000 2) = .next (did (.sw 1 2 0xFFFF) (regs12 0x10000 2)) :=
  ⟨by decide, by decide, rfl, rfl⟩
theorem test_witness_beq :
    readReg (regs12 4 4).reg 1 = readReg (regs12 4 4).reg 2 ∧
    readReg (regs12 4 5).reg 1 ≠ readReg (regs12 4 5).reg 2 ∧
    exec (.beq 1 2 3) (regs12 4 4) = .next (did (.beq 1 2 3) (regs12 4 4)) ∧
    exec (.beq 1 2 3) (regs12 4 5) = .next (did (.beq 1 2 3) (regs12 4 5)) :=
  ⟨by decide, by decide, rfl, rfl⟩
theorem test_witness_exec_faults :
    exec (.nor 0 0 8) State.reset = .fault (.destinationOutOfRange 8) ∧
    exec (.add 0 0 0xFFFF) State.reset = .fault (.destinationOutOfRange 0xFFFF) ∧
    exec (.lw 1 2 0) (regs12 0x10000 0) = .fault (.dataAddressOutOfRange 0x10000) ∧
    exec (.sw 0 0 0x8000) State.reset = .fault (.dataAddressOutOfRange 0xFFFF8000) :=
  ⟨rfl, rfl, rfl, rfl⟩

/-! ### Witnesses: the cycle -/

theorem test_witness_halted :
    (opcode (pipe addW addW addW haltWord).memwb.instr).toNat = 6 ∧
    (opcode State.reset.memwb.instr).toNat ≠ 6 ∧
    cycle defaultParams State.reset = .next (after State.reset) ∧
    decode (pipe addW addW addW 0x03800000).memwb.instr = .error (.unrecognisedOpcode 14) :=
  ⟨rfl, by decide, rfl, rfl⟩
theorem test_witness_decodeStage :
    let s := { pipe addW noopWord noopWord noopWord with reg := (regs12 5 6).reg }
    s.halted = false ∧ redirect s = false ∧ stall defaultParams s = false ∧
    cycle defaultParams s = .next (after s) ∧ (after s).idex.readRegA = 5#32 :=
  ⟨rfl, rfl, rfl, rfl, by decide⟩

/-- An instruction in IDEX with operand A from `SRC_EX` (5) and operand B from `SRC_WB` (7). -/
def forwarding (d : Word) : State :=
  { pipe noopWord d addW addW with
    idex := { IdExLatch.empty with instr := d, offset := 1, hazA := ⟨true, .ex⟩, hazB := ⟨true, .wb⟩ }
    exmem := { ExMemLatch.empty with instr := addW, aluResult := 5 }
    wbend := { WbEndLatch.empty with instr := addW, writeData := 7 } }

/-- The same instruction with both operands from `SRC_MEM` (6), so that a `beq` is taken. -/
def forwardingMem (d : Word) : State :=
  { pipe noopWord d addW addW with
    idex := { IdExLatch.empty with instr := d, offset := 1, hazA := ⟨true, .mem⟩, hazB := ⟨true, .mem⟩ }
    memwb := { MemWbLatch.empty with instr := addW, writeData := 6 } }

theorem test_witness_execute :
    let s := forwarding addW
    s.halted = false ∧ (redirect s && defaultParams.squashExecute) = false ∧
    cycle defaultParams s = .next (after s) ∧ s.idex.hazA = ⟨true, .ex⟩ ∧
    (5 : Word) = s.exmem.aluResult ∧ s.idex.hazB = ⟨true, .wb⟩ ∧ (7 : Word) = s.wbend.writeData ∧
    s.idex.hazA.wf ∧ s.idex.hazB.wf ∧ (after s).exmem.aluResult = 12#32 :=
  ⟨rfl, rfl, rfl, rfl, rfl, rfl, rfl, by decide, by decide, by decide⟩
theorem test_witness_execute_cases :
    (after (forwarding 0x00400001)).exmem.aluResult = 0xFFFFFFF8#32 ∧
    (after (forwarding swW)).exmem.aluResult = 6#32 ∧
    (after (forwarding beqW)).exmem.branchTaken = false ∧
    (after (forwardingMem beqW)).exmem.branchTaken = true ∧
    (after (forwardingMem beqW)).exmem.branchTarget = 1#32 ∧
    cycle defaultParams (forwardingMem beqW) = .next (after (forwardingMem beqW)) ∧
    Haz.wf ⟨false, .none⟩ ∧ Haz.wf ⟨true, .mem⟩ :=
  ⟨by decide, by decide, by decide, by decide, by decide, rfl, by decide, by decide⟩
theorem test_witness_slot :
    (taken addW).halted = false ∧ redirect (taken addW) = true ∧
    cycle defaultParams (taken addW) = .next (after (taken addW)) ∧
    defaultParams.squashExecute = false ∧
    cycle squashing (taken addW) = .next (outState (cycle squashing (taken addW))) ∧
    squashing.squashExecute = true :=
  ⟨rfl, rfl, rfl, rfl, rfl, rfl⟩

/-- A word in EXMEM with address 65535 and value 9. -/
def atMemory (x : Word) : State :=
  { State.reset with
    exmem := { ExMemLatch.empty with instr := x, aluResult := 0xFFFF, readRegB := 9 } }

theorem test_witness_memoryStage :
    (atMemory addW).halted = false ∧
    cycle defaultParams (atMemory addW) = .next (after (atMemory addW)) ∧
    (opcode (atMemory addW).exmem.instr).toNat ≤ 1 ∧
    cycle defaultParams (atMemory lwW) = .next (after (atMemory lwW)) ∧
    (opcode (atMemory lwW).exmem.instr).toNat = 2 ∧
    cycle defaultParams (atMemory swW) = .next (after (atMemory swW)) ∧
    (opcode (atMemory swW).exmem.instr).toNat = 3 ∧
    cycle defaultParams (atMemory beqW) = .next (after (atMemory beqW)) ∧
    3 < (opcode (atMemory beqW).exmem.instr).toNat :=
  ⟨rfl, rfl, by decide, rfl, rfl, rfl, rfl, rfl, by decide⟩
theorem test_witness_stage_faults :
    let s := { atMemory swW with
      exmem := { ExMemLatch.empty with instr := swW, aluResult := 0x10000 } }
    let u := pipe noopWord noopWord noopWord 0x00400008
    s.halted = false ∧ (opcode s.exmem.instr).toNat = 3 ∧ 65535 < s.exmem.aluResult.toNat ∧
    ¬ s.writebackFaults ∧ u.halted = false ∧ (opcode u.memwb.instr).toNat ≤ 1 ∧
    7 < (fieldImm u.memwb.instr).toNat := by decide
theorem test_witness_writeback :
    (pipe noopWord noopWord noopWord 0x00000007).halted = false ∧
    cycle defaultParams (pipe noopWord noopWord noopWord 0x00000007) =
      .next (after (pipe noopWord noopWord noopWord 0x00000007)) ∧
    (opcode (pipe noopWord noopWord noopWord 0x00000007).memwb.instr).toNat ≤ 1 ∧
    cycle defaultParams (pipe noopWord noopWord noopWord lwW) =
      .next (after (pipe noopWord noopWord noopWord lwW)) ∧
    (opcode (pipe noopWord noopWord noopWord lwW).memwb.instr).toNat = 2 ∧
    cycle defaultParams (pipe noopWord noopWord noopWord swW) =
      .next (after (pipe noopWord noopWord noopWord swW)) ∧
    2 < (opcode (pipe noopWord noopWord noopWord swW).memwb.instr).toNat :=
  ⟨rfl, rfl, by decide, rfl, rfl, rfl, by decide⟩

/-- `add 0 0 8` in MEMWB, an `lw` of address 65536 in EXMEM, pc 65536: three faults in one cycle. -/
def threeFaults : State :=
  { pipe noopWord noopWord lwW 0x00000008 with
    pc := 0x10000
    exmem := { ExMemLatch.empty with instr := lwW, aluResult := 0x10000 } }

theorem test_witness_faults :
    threeFaults.halted = false ∧ threeFaults.writebackFaults ∧ threeFaults.memoryFaults ∧
    threeFaults.fetchFaults defaultParams ∧
    ¬ ({ threeFaults with memwb := .empty }).writebackFaults ∧
    ¬ State.reset.writebackFaults ∧ ¬ State.reset.memoryFaults ∧
    ¬ State.reset.fetchFaults defaultParams := by decide
theorem test_fault_order :
    cycle defaultParams threeFaults = .fault (.destinationOutOfRange 8) ∧
    cycle defaultParams { threeFaults with memwb := .empty } =
      .fault (.dataAddressOutOfRange 0x10000) :=
  ⟨rfl, rfl⟩
theorem test_witness_reservedDest :
    7 < (8#16).toNat ∧ 7 < (0xFFFF#16).toNat ∧
    (pipe noopWord noopWord noopWord 0x00000008).memwb.instr = encode (.add 0 0 8) ∧
    (pipe noopWord noopWord noopWord 0x0040FFFF).memwb.instr = encode (.nor 0 0 0xFFFF) := by decide

/-! ### Witnesses: hazards, stall, redirect -/

theorem test_witness_dest_and_needs :
    (opcode 0x00400001#32).toNat ≤ 1 ∧ (opcode lwW).toNat = 2 ∧ 2 < (opcode swW).toNat ∧
    (8#16).toNat ≠ (0#3).toNat ∧ needsA lwW = true ∧ needsB swW = true ∧
    needsA jalrW = false ∧ needsB lwW = false ∧
    (pipe jalrW lwW noopWord noopWord).ifid.instr = jalrW ∧ needsB jalrW = false := by decide
theorem test_witness_nearest_ex :
    let s := pipe noopWord addW lwW addW
    destOf s.idex.instr = some (regIndex 3) ∧ (opcode s.idex.instr).toNat ≤ 1 ∧
    destOf (pipe noopWord lwW addW addW).idex.instr = some (regIndex 1) ∧
    (opcode (pipe noopWord lwW addW addW).idex.instr).toNat = 2 := by decide
theorem test_witness_nearest_mem_wb :
    let s := pipe noopWord noopWord addW addW
    let u := pipe noopWord noopWord noopWord lwW
    ¬ destOf s.idex.instr = some (regIndex 3) ∧ destOf s.exmem.instr = some (regIndex 3) ∧
    ¬ destOf u.idex.instr = some (regIndex 1) ∧ ¬ destOf u.exmem.instr = some (regIndex 1) ∧
    destOf u.memwb.instr = some (regIndex 1) ∧ (opcode u.memwb.instr).toNat = 2 ∧
    ¬ destOf u.memwb.instr = some (regIndex 0) := by decide
theorem test_witness_stall :
    loadThenAdd.halted = false ∧ (after loadThenAdd).halted = false ∧
    stall defaultParams loadThenAdd = true ∧
    cycle defaultParams loadThenAdd = .next (after loadThenAdd) ∧
    cycle defaultParams (after loadThenAdd) = .next (after (after loadThenAdd)) ∧
    needsA loadThenAdd.ifid.instr = true ∧
    fieldA loadThenAdd.ifid.instr = fieldB loadThenAdd.idex.instr ∧
    operandA (after (after loadThenAdd)) = 77#32 :=
  ⟨rfl, rfl, rfl, rfl, rfl, rfl, rfl, rfl⟩

/-- `add 2 1 3` behind `lw 0 1 11`: the load-use is on operand B. -/
def loadThenAddB : State := { loadThenAdd with ifid := { IfIdLatch.empty with instr := 0x00110003 } }

theorem test_witness_stall_on_b :
    loadThenAddB.halted = false ∧ (after loadThenAddB).halted = false ∧
    stall defaultParams loadThenAddB = true ∧
    cycle defaultParams loadThenAddB = .next (after loadThenAddB) ∧
    cycle defaultParams (after loadThenAddB) = .next (after (after loadThenAddB)) ∧
    needsB loadThenAddB.ifid.instr = true ∧
    fieldB loadThenAddB.ifid.instr = fieldB loadThenAddB.idex.instr :=
  ⟨rfl, rfl, rfl, rfl, rfl, rfl, rfl⟩
theorem test_witness_redirect :
    (taken addW).halted = false ∧ redirect (taken addW) = true ∧
    cycle defaultParams (taken addW) = .next (after (taken addW)) ∧
    (after (taken addW)).halted = false ∧ redirect (after (taken addW)) = false ∧
    cycle defaultParams (after (taken addW)) = .next (after (after (taken addW))) :=
  ⟨rfl, rfl, rfl, rfl, rfl, rfl⟩
theorem test_witness_redirect_beats_stall :
    let s := { taken lwW with ifid := { IfIdLatch.empty with instr := addW } }
    s.halted = false ∧ redirect s = true ∧ loadUse defaultParams s = true ∧
    cycle defaultParams s = .next (after s) :=
  ⟨rfl, rfl, rfl, rfl⟩
theorem test_witness_unrecognised :
    let s := pipe 0x02000000 0xFFFFFFFF 0x02090003 0xFFFFFFFF
    7 < (opcode s.ifid.instr).toNat ∧ 7 < (opcode s.idex.instr).toNat ∧
    7 < (opcode s.exmem.instr).toNat ∧ 7 < (opcode s.memwb.instr).toNat ∧
    s.halted = false ∧ redirect s = false ∧
    (redirect s && defaultParams.squashExecute) = false ∧
    cycle defaultParams s = .next (after s) :=
  ⟨by decide, by decide, by decide, by decide, rfl, rfl, rfl, rfl⟩
theorem test_witness_jalr_noop :
    (opcode jalrW).toNat = 5 ∧ (opcode noopWord).toNat = 7 ∧
    (pipe noopWord noopWord jalrW noopWord).exmem.instr = jalrW ∧
    (pipe noopWord noopWord noopWord jalrW).memwb.instr = jalrW := by decide
theorem test_witness_wbend :
    State.reset.halted = false ∧ State.reset.idex.hazA ≠ ⟨true, .wb⟩ ∧
    State.reset.idex.hazB ≠ ⟨true, .wb⟩ := by decide

/-- The reset state of the image `halt`. -/
def haltImage : State := (State.load [haltWord]).getD State.reset

theorem test_witness_halt_timing :
    let s0 := haltImage
    let s1 := after s0
    let s2 := after s1
    let s3 := after s2
    s0.halted = false ∧ s1.halted = false ∧ s2.halted = false ∧ s3.halted = false ∧
    cycle defaultParams s0 = .next s1 ∧ cycle defaultParams s1 = .next s2 ∧
    cycle defaultParams s2 = .next s3 ∧ cycle defaultParams s3 = .next (after s3) ∧
    redirect s0 = false ∧ stall defaultParams s0 = false ∧ redirect s1 = false ∧
    (redirect s2 && defaultParams.squashExecute) = false ∧
    (opcode (s0.instrMem.read s0.pc.toNat)).toNat = 6 :=
  ⟨rfl, rfl, rfl, rfl, rfl, rfl, rfl, rfl, rfl, rfl, rfl, rfl, rfl⟩

/-! ### Witnesses: invariants -/

theorem test_witness_latch_form :
    (taken addW).hazWf ∧ (taken addW).branchFlagWf ∧
    Sys2Proof.Machine.step (taken addW) = .next (after (taken addW)) :=
  ⟨by decide, by decide, rfl⟩
theorem test_witness_irrelevant_zero :
    (taken addW).irrelevantZero ∧ Sys2Proof.Machine.step (taken addW) = .next (after (taken addW)) :=
  ⟨by decide, rfl⟩
theorem test_witness_fetch_coherent :
    (after haltImage).fetchCoherent ∧ (after haltImage).ifid.instr = haltWord ∧
    Sys2Proof.Machine.step (after haltImage) = .next (after (after haltImage)) :=
  ⟨by decide, by decide, rfl⟩

/-- `add 3 3 3` in IDEX, its operands coming from `add 1 2 3` in EXMEM with the value 5. -/
def chained : State :=
  { pipe noopWord 0x001B0003 addW noopWord with
    idex := { IdExLatch.empty with
      instr := 0x001B0003, pcPlus1 := 1, offset := 3, hazA := ⟨true, .ex⟩, hazB := ⟨true, .ex⟩ }
    exmem := { ExMemLatch.empty with instr := addW, aluResult := 5 } }

theorem test_witness_sourced :
    chained.hazSourced ∧ Sys2Proof.Machine.step chained = .next (after chained) :=
  ⟨by decide, rfl⟩
theorem test_witness_coherent :
    chained.operandsCoherent ∧ needsA chained.idex.instr = true ∧ chained.halted = false ∧
    defaultParams.lwlwFarDrop = false ∧
    Sys2Proof.Machine.step chained = .next (after chained) ∧
    cycle defaultParams chained = .next (after chained) :=
  ⟨by decide, rfl, rfl, rfl, rfl, rfl⟩
theorem test_witness_loaded_image : State.load [haltWord] = some haltImage := by rfl

/-- `lw 1 2 0` in decode, three behind `lw 0 1 11` in MEMWB, which carries 3. -/
def farLoads : State :=
  { pipe 0x008A0000 noopWord noopWord lwW with
    memwb := { MemWbLatch.empty with instr := lwW, writeData := 3 } }

theorem test_witness_far_load :
    let s := farLoads
    s.halted = false ∧ redirect s = false ∧ stall defaultParams s = false ∧
    stall dropping s = false ∧ cycle defaultParams s = .next (after s) ∧
    cycle dropping s = .next (outState (cycle dropping s)) ∧
    (opcode s.ifid.instr).toNat = 2 ∧ (opcode s.memwb.instr).toNat = 2 ∧
    fieldB s.memwb.instr = fieldA s.ifid.instr ∧
    destOf s.idex.instr ≠ some (regIndex (fieldA s.ifid.instr)) ∧
    destOf s.exmem.instr ≠ some (regIndex (fieldA s.ifid.instr)) :=
  ⟨rfl, rfl, rfl, rfl, rfl, rfl, rfl, rfl, rfl, by decide, by decide⟩

/-- `chained` with another value in a field no rule reads for an `add`. -/
def chained' : State := { chained with exmem := { chained.exmem with branchTarget := 9 } }

theorem test_witness_same_relevant :
    chained.sameRelevant chained' ∧ chained ≠ chained' ∧ chained.hazSourced ∧ chained'.hazSourced ∧
    cycle defaultParams chained = .next (after chained) :=
  ⟨by decide, by decide, by decide, by decide, rfl⟩

/-! ### Witnesses: a step runs the decoded instruction -/

/-- The reset state of the image `nor 0 0 1`, `halt`. -/
def norImage : State := (State.load [0x00400001, haltWord]).getD State.reset

theorem test_witness_steps :
    norImage.drained ∧ norImage.pc.toNat + 2 ≤ 65535 ∧
    decode (norImage.instrMem.read norImage.pc.toNat) = .ok (.nor 0 0 1) ∧
    exec (.nor 0 0 1) norImage = .next (did (.nor 0 0 1) norImage) ∧
    (did (.nor 0 0 1) norImage).halted = false :=
  ⟨by decide, by decide, rfl, rfl, rfl⟩
theorem test_witness_carry :
    chained.halted = false ∧ (redirect chained && defaultParams.squashExecute) = false ∧
    chained.operandsCoherent ∧ chained.idex.offset = sext16 (fieldImm chained.idex.instr) ∧
    cycle defaultParams chained = .next (after chained) ∧
    decode chained.idex.instr = .ok (.add 3 3 3) ∧
    exec (.add 3 3 3) { chained.older with pc := chained.idex.pcPlus1 - 1 } =
      .next (did (.add 3 3 3) { chained.older with pc := chained.idex.pcPlus1 - 1 }) ∧
    (opcode chained.idex.instr).toNat ≠ 6 :=
  ⟨rfl, rfl, by decide, by decide, rfl, rfl, rfl, by decide⟩
/-- An unrecognised word in IDEX. -/
def unknown : State :=
  { State.reset with idex := { IdExLatch.empty with instr := 0xFFFFFFFF, offset := 0xFFFFFFFF } }

theorem test_witness_carry_unrecognised :
    unknown.halted = false ∧ (redirect unknown && defaultParams.squashExecute) = false ∧
    unknown.operandsCoherent ∧ unknown.idex.offset = sext16 (fieldImm unknown.idex.instr) ∧
    cycle defaultParams unknown = .next (after unknown) ∧
    decode unknown.idex.instr = .error (.unrecognisedOpcode 1023) :=
  ⟨rfl, rfl, by decide, by decide, rfl, rfl⟩

/-- `lw 0 1 -1` in IDEX. -/
def badLoad : State :=
  { State.reset with
    idex := { IdExLatch.empty with instr := 0x0081FFFF, pcPlus1 := 1, offset := 0xFFFFFFFF } }

theorem test_witness_fault_of_instruction :
    let s := badLoad
    s.halted = false ∧ (redirect s && defaultParams.squashExecute) = false ∧ s.operandsCoherent ∧
    s.idex.offset = sext16 (fieldImm s.idex.instr) ∧
    cycle defaultParams s = .next (after s) ∧ decode s.idex.instr = .ok (.lw 0 1 0xFFFF) ∧
    exec (.lw 0 1 0xFFFF) { s.older with pc := s.idex.pcPlus1 - 1 } =
      .fault (.dataAddressOutOfRange 0xFFFFFFFF) ∧
    (after s).halted = false ∧ ¬ (after s).writebackFaults :=
  ⟨rfl, rfl, by decide, by decide, rfl, rfl, rfl, rfl, by decide⟩

/-- `add 0 0 8` in IDEX. -/
def badAdd : State :=
  { State.reset with idex := { IdExLatch.empty with instr := 0x00000008, pcPlus1 := 1, offset := 8 } }

theorem test_witness_fault_of_add :
    let s := badAdd
    s.halted = false ∧ (redirect s && defaultParams.squashExecute) = false ∧ s.operandsCoherent ∧
    s.idex.offset = sext16 (fieldImm s.idex.instr) ∧
    cycle defaultParams s = .next (after s) ∧ decode s.idex.instr = .ok (.add 0 0 8) ∧
    exec (.add 0 0 8) { s.older with pc := s.idex.pcPlus1 - 1 } = .fault (.destinationOutOfRange 8) ∧
    (after s).halted = false ∧ ¬ (after s).writebackFaults ∧ (opcode s.idex.instr).toNat ≤ 1 ∧
    cycle defaultParams (after s) = .next (after (after s)) :=
  ⟨rfl, rfl, by decide, by decide, rfl, rfl, rfl, rfl, by decide, by decide, rfl⟩
theorem test_fault_of_add_behind_fetch_fault :
    cycle defaultParams (after { badAdd with pc := 0xFFFF })
      = .fault (.fetchAddressOutOfRange 0x10000) := by rfl

/-- A halted state with a load-use and the pc outside the memory, whose pc and latches
`withFetchWord` must change before the word can be fetched. -/
def blocked : State := { pipe addW lwW beqW haltWord with pc := 0x1FFFC }

theorem test_witness_placed :
    blocked.halted = true ∧ blocked.pc.toNat % 65536 + 3 ≤ 65535 ∧ decode addW = .ok (.add 1 2 3) ∧
    exec (.add 1 2 3) (blocked.withFetchWord 32 addW.toNat) =
      .next (did (.add 1 2 3) (blocked.withFetchWord 32 addW.toNat)) ∧
    Sys2Proof.Machine.step (blocked.withFetchWord 32 addW.toNat) =
      .next (after (blocked.withFetchWord 32 addW.toNat)) ∧
    (after (blocked.withFetchWord 32 addW.toNat)).ifid.instr = addW :=
  ⟨rfl, by decide, rfl, rfl, rfl, by decide⟩
theorem test_witness_halted_run :
    defaultParams.lwlwFarDrop = false ∧ haltImage.drained ∧
    runCycles defaultParams 4 haltImage = .next (outState (runCycles defaultParams 4 haltImage)) ∧
    (outState (runCycles defaultParams 4 haltImage)).halted = true :=
  ⟨rfl, by decide, rfl, by decide⟩

end Sys2Proof.Tests
end

section
/-!
PROOFS. What each function on words does, by the opcode field: the operands and destination (R126,
R61), execute (R86, R87), memory (R88), the redirect and halted tests (R134, R81).
-/

namespace Sys2Proof.Machine

open Sys2Proof Sys2Proof.Config Sys2Proof.Laws

/-- R126: operand A is needed by the opcodes 0 to 4. -/
theorem needsA_iff (w : Word) : needsA w = true ↔ (opcode w).toNat ≤ 4 := by
  rcases decode_cases w with ⟨h, e⟩ | ⟨h, e⟩ | ⟨h, e⟩ | ⟨h, e⟩ | ⟨h, e⟩ | ⟨h, e⟩ | ⟨h, e⟩ | ⟨h, e⟩ | ⟨h, e⟩ <;>
    simp [needsA, e, instrNeedsA, h]
  omega

/-- R126: operand B is needed by `add`, `nor`, `sw` and `beq`. -/
theorem needsB_iff (w : Word) :
    needsB w = true ↔ (opcode w).toNat ≤ 1 ∨ (opcode w).toNat = 3 ∨ (opcode w).toNat = 4 := by
  rcases decode_cases w with ⟨h, e⟩ | ⟨h, e⟩ | ⟨h, e⟩ | ⟨h, e⟩ | ⟨h, e⟩ | ⟨h, e⟩ | ⟨h, e⟩ | ⟨h, e⟩ | ⟨h, e⟩ <;>
    simp [needsB, e, instrNeedsB, h]
  omega

theorem needsA_of_gt {w : Word} (h : 4 < (opcode w).toNat) : needsA w = false := by
  rw [← Bool.not_eq_true, needsA_iff]; omega

theorem needsB_of_gt {w : Word} (h : 4 < (opcode w).toNat) : needsB w = false := by
  rw [← Bool.not_eq_true, needsB_iff]; omega

/-- R127: an operand that is not needed has the clear descriptor. -/
theorem descriptorA_of_not_needed {w : Word} (h : needsA w = false) (p : Params) (s : State) :
    descriptorA p s w = .clear := by
  simp [descriptorA, h]

theorem descriptorB_of_not_needed {w : Word} (h : needsB w = false) (p : Params) (s : State) :
    descriptorB p s w = .clear := by
  simp [descriptorB, h]

/-- R61: only the opcodes 0 to 2 have a destination. -/
theorem destOf_eq_none_iff (w : Word) : destOf w = none ↔ 2 < (opcode w).toNat := by
  rcases destOf_cases w with ⟨h, e⟩ | ⟨h, e⟩ | ⟨h, e⟩ <;> simp [e] <;> omega

theorem usesAlu_eq_false_iff (w : Word) : usesAlu w = false ↔ 3 < (opcode w).toNat := by
  rw [usesAlu, decide_eq_false_iff_not]; omega

theorem producesValue_eq_false_iff (w : Word) :
    producesValue w = false ↔ 2 < (opcode w).toNat := by
  rw [producesValue, decide_eq_false_iff_not]; omega

/-- A word with a destination has an opcode that makes the writeback value relevant (R27). -/
theorem producesValue_of_destOf {w : Word} {d : Imm16} (h : destOf w = some d) :
    producesValue w = true := by
  rw [← Bool.not_eq_false, producesValue_eq_false_iff, ← destOf_eq_none_iff, h]
  simp

theorem isBeq_iff (w : Word) : isBeq w = true ↔ (opcode w).toNat = 4 := opcode_eq_iff w 4

/-- R86: the ALU result of a word, by its opcode field. -/
theorem aluResultOf_eq (w a b off : Word) :
    aluResultOf w a b off =
      if (opcode w).toNat = 0 then a + b
      else if (opcode w).toNat = 1 then ~~~(a ||| b)
      else if (opcode w).toNat ≤ 3 then a + off
      else 0 := by
  rcases decode_cases w with ⟨h, e⟩ | ⟨h, e⟩ | ⟨h, e⟩ | ⟨h, e⟩ | ⟨h, e⟩ | ⟨h, e⟩ | ⟨h, e⟩ | ⟨h, e⟩ | ⟨h, e⟩
  case inr.inr.inr.inr.inr.inr.inr.inr =>
    simp only [aluResultOf, e]
    repeat rw [if_neg (by omega)]
  all_goals simp [aluResultOf, e, h, instrAlu, aluAdd, aluNor, effectiveAddress]

/-- R86: a word whose opcode is neither `add`, `nor`, `lw` nor `sw` computes 0. -/
theorem aluResultOf_of_gt {w : Word} (h : 3 < (opcode w).toNat) (a b off : Word) :
    aluResultOf w a b off = 0 := by
  rw [aluResultOf_eq]
  repeat rw [if_neg (by omega)]

/-- R87: the branch unit on a `beq`. -/
theorem branchUnit_of_beq {w : Word} (h : (opcode w).toNat = 4) (a b q off : Word) :
    branchUnit w a b q off = (a == b, q + off) := by
  simp [branchUnit, decode, h, branchEqual, branchTargetOf]

/-- R87: the branch unit on everything but a `beq`. -/
theorem branchUnit_of_ne {w : Word} (h : (opcode w).toNat ≠ 4) (a b q off : Word) :
    branchUnit w a b q off = (false, 0) := by
  rcases decode_cases w with ⟨ho, e⟩ | ⟨ho, e⟩ | ⟨ho, e⟩ | ⟨ho, e⟩ | ⟨ho, e⟩ | ⟨ho, e⟩ | ⟨ho, e⟩ | ⟨ho, e⟩ | ⟨ho, e⟩
  case inr.inr.inr.inr.inl => exact absurd ho h
  all_goals simp [branchUnit, e]

/-- R88: what the memory stage does with a word, by its opcode field. -/
theorem memoryOf_eq (w : Word) (m : Memory) (a v : Word) :
    memoryOf w m a v =
      if (opcode w).toNat ≤ 1 then .ok (a, m)
      else if (opcode w).toNat = 2 then (memRead m a).map (fun x => (x, m))
      else if (opcode w).toNat = 3 then (memWrite m a v).map (fun m' => (0, m'))
      else .ok (0, m) := by
  rcases decode_cases w with ⟨h, e⟩ | ⟨h, e⟩ | ⟨h, e⟩ | ⟨h, e⟩ | ⟨h, e⟩ | ⟨h, e⟩ | ⟨h, e⟩ | ⟨h, e⟩ | ⟨h, e⟩
  case inr.inr.inr.inr.inr.inr.inr.inr =>
    simp only [memoryOf, e]
    repeat rw [if_neg (by omega)]
  all_goals simp [memoryOf, e, h, instrMemory]

/-- R88: a word whose opcode is neither `add`, `nor`, `lw` nor `sw` accesses nothing. -/
theorem memoryOf_of_gt {w : Word} (h : 3 < (opcode w).toNat) (m : Memory) (a v : Word) :
    memoryOf w m a v = .ok (0, m) := by
  rw [memoryOf_eq]
  repeat rw [if_neg (by omega)]

/-- R88: a load or store outside the memory faults. -/
theorem memoryOf_of_outside {w : Word} {a : Word}
    (h : (opcode w).toNat = 2 ∨ (opcode w).toNat = 3) (ha : 65535 < a.toNat) (m : Memory) (v : Word) :
    memoryOf w m a v = .error (.dataAddressOutOfRange a) := by
  have hr := inRange_of_gt ha
  rcases h with h | h <;> simp [memoryOf_eq, h, memRead, memWrite, hr, Except.map]

/-- R90: a word without a destination commits nothing. -/
theorem writebackOf_of_none {w : Word} (h : destOf w = none) (regs : Vector Word 8) (v : Word) :
    writebackOf w regs v = .ok regs := by
  simp [writebackOf, h]

/-- R81: the halted test reads the opcode field of MEMWB. -/
theorem halted_iff (s : State) : s.halted = true ↔ (opcode s.memwb.instr).toNat = 6 :=
  opcode_eq_iff _ 6

/-- R134: a redirect is a taken `beq` in EXMEM. -/
theorem redirect_iff (s : State) :
    redirect s = true ↔ (opcode s.exmem.instr).toNat = 4 ∧ s.exmem.branchTaken = true := by
  rw [redirect, Bool.and_eq_true, opcode_eq_iff]; rfl

theorem redirect_of_ne {s : State} (h : (opcode s.exmem.instr).toNat ≠ 4) : redirect s = false := by
  rw [← Bool.not_eq_true, redirect_iff]
  exact fun hr => h hr.1

theorem halted_of_ne {s : State} (h : (opcode s.memwb.instr).toNat ≠ 6) : s.halted = false := by
  rw [← Bool.not_eq_true, halted_iff]
  exact h

end Sys2Proof.Machine
end

section
/-!
PROOFS. The hazard scan: where a forwarding or load-use answer comes from, and when there is no
stall (R125, R128, R131).
-/

namespace Sys2Proof.Machine

open Sys2Proof Sys2Proof.Config Sys2Proof.Laws

theorem scanEntry_forward {p : Params} {w : Word} {r : RegNum} {entry : Word} {tag src : HazSrc}
    (h : scanEntry p w r entry tag = .forward src) : src = tag := by
  rw [scanEntry_eq] at h
  split_ifs at h <;> cases h <;> rfl

/-- R128: what a scan answers, one of its entries answers. -/
theorem scanList_answer {p : Params} {w : Word} {r : RegNum} {l : List (Word × HazSrc)}
    {res : ScanResult} (hres : res ≠ .none) (h : scanList p w r l = res) :
    ∃ entry tag, (entry, tag) ∈ l ∧ scanEntry p w r entry tag = res := by
  induction l with
  | nil => exact absurd h.symm hres
  | cons hd rest ih =>
    obtain ⟨entry, tag⟩ := hd
    cases he : scanEntry p w r entry tag with
    | none =>
      obtain ⟨e, t, hmem, hs⟩ := ih (by simpa [scanList, he] using h)
      exact ⟨e, t, .tail _ hmem, hs⟩
    | forward src => exact ⟨entry, tag, .head _, by simpa [scanList, he] using h⟩
    | loadUse => exact ⟨entry, tag, .head _, by simpa [scanList, he] using h⟩

/-- A scan that forwards does so from an entry of the window, with that entry's tag (R128). -/
theorem scan_forward {p : Params} {s : State} {r : RegNum} {w : Word} {src : HazSrc}
    (h : scan p s r w = .forward src) :
    ∃ entry, (entry, src) ∈ window s ∧ scanEntry p w r entry src = .forward src := by
  obtain ⟨entry, tag, hmem, hs⟩ := scanList_answer (by simp) h
  obtain rfl := scanEntry_forward hs
  exact ⟨entry, hmem, hs⟩

/-- No scan forwards from `SRC_NONE`: the window holds no such tag (R125). -/
theorem scan_ne_forward_none (p : Params) (s : State) (r : RegNum) (w : Word) :
    scan p s r w ≠ .forward .none := by
  intro h
  obtain ⟨entry, hmem, _⟩ := scan_forward h
  simp [window] at hmem

/-- R131: a word that needs no operand never stalls. -/
theorem loadUse_of_not_needed {p : Params} {s : State} (hA : needsA s.ifid.instr = false)
    (hB : needsB s.ifid.instr = false) : loadUse p s = false := by
  simp [loadUse, hA, hB]

/-- R128: an entry answers load-use only for the nearest position, and only a load does. -/
theorem scanEntry_loadUse {p : Params} {w : Word} {r : RegNum} {entry : Word} {tag : HazSrc}
    (h : scanEntry p w r entry tag = .loadUse) :
    tag = .ex ∧ (opcode entry).toNat = 2 ∧ destOf entry = some (regIndex r) := by
  rw [scanEntry_eq] at h
  split_ifs at h with hd ho ht
  exact ⟨ht, ho, hd⟩

/-- R128: a load-use comes from the load in IDEX that produces the register. -/
theorem scan_loadUse {p : Params} {s : State} {r : RegNum} {w : Word}
    (h : scan p s r w = .loadUse) :
    (opcode s.idex.instr).toNat = 2 ∧ destOf s.idex.instr = some (regIndex r) := by
  obtain ⟨entry, tag, hmem, hs⟩ := scanList_answer (by simp) h
  obtain ⟨rfl, ho, hd⟩ := scanEntry_loadUse hs
  obtain rfl : entry = s.idex.instr := by simpa [window] using hmem
  exact ⟨ho, hd⟩

theorem loadUse_of_not_load {p : Params} {s : State} (h : (opcode s.idex.instr).toNat ≠ 2) :
    loadUse p s = false := by
  have hscan : ∀ r w, scan p s r w ≠ .loadUse := fun r w hs => h (scan_loadUse hs).1
  simp [loadUse, hscan]

theorem stall_of_loadUse_false {p : Params} {s : State} (h : loadUse p s = false) :
    stall p s = false := by
  simp [stall, h]

end Sys2Proof.Machine
end

section
/-!
PROOFS. The cycle as a whole: what a performed cycle commits, where it faults, and the induction
behind every invariant (R92 to R95).
-/

namespace Sys2Proof.Machine

open Sys2Proof Sys2Proof.Config Sys2Proof.Laws

/-- A cycle of a running machine that answers a next state commits what its stages answered (R92). -/
theorem cycle_performed {p : Params} {s t : State} (hh : s.halted = false) (h : cycle p s = .next t) :
    ∃ regs m f, writebackStage s = .ok regs ∧ memoryStage s = .ok m ∧ frontEnd p s = .ok f ∧
      t = commit p s regs m f := by
  rcases cycle_next h with ⟨hh', _⟩ | ⟨_, hc⟩
  · simp [hh] at hh'
  · exact hc

/-- A halted machine stays as it is (R81). -/
theorem cycle_of_halted {s : State} (hh : s.halted = true) (p : Params) : cycle p s = .next s := by
  simp [cycle, hh]

theorem cycle_of_writeback_error {p : Params} {s : State} {f : Fault} (hh : s.halted = false)
    (hw : writebackStage s = .error f) : cycle p s = .fault f := by
  simp [cycle, hh, hw]

theorem cycle_of_memory_error {p : Params} {s : State} {regs : Vector Word 8} {f : Fault}
    (hh : s.halted = false) (hw : writebackStage s = .ok regs) (hm : memoryStage s = .error f) :
    cycle p s = .fault f := by
  simp [cycle, hh, hw, hm]

theorem cycle_of_fetch_error {p : Params} {s : State} {regs : Vector Word 8}
    {m : MemWbLatch × Memory} {f : Fault} (hh : s.halted = false)
    (hw : writebackStage s = .ok regs) (hm : memoryStage s = .ok m) (hf : frontEnd p s = .error f) :
    cycle p s = .fault f := by
  simp [cycle, hh, hw, hm, hf]

/-- Two running states whose stages answer alike and commit alike have the same cycle. -/
theorem cycle_congr {p : Params} {s s' : State} (hh : s.halted = false) (hh' : s'.halted = false)
    (hw : writebackStage s' = writebackStage s) (hm : memoryStage s' = memoryStage s)
    (hf : frontEnd p s' = frontEnd p s)
    (hc : ∀ regs m f, commit p s' regs m f = commit p s regs m f) : cycle p s' = cycle p s := by
  simp [cycle, hh, hh', hw, hm, hf, hc]

/-- Everything a cycle can do when it faults: writeback, then memory, then the fetch (R93, R104). -/
theorem cycle_fault {p : Params} {s : State} {f : Fault} (h : cycle p s = .fault f) :
    s.halted = false ∧
      (writebackStage s = .error f ∨
       (∃ regs, writebackStage s = .ok regs ∧ memoryStage s = .error f) ∨
       (∃ regs m, writebackStage s = .ok regs ∧ memoryStage s = .ok m ∧ frontEnd p s = .error f)) := by
  unfold cycle at h
  split at h
  · cases h
  next hh =>
    refine ⟨by simpa using hh, ?_⟩
    split at h
    · next hw => cases h; exact .inl hw
    · next regs hw =>
      split at h
      · next hm => cases h; exact .inr (.inl ⟨regs, hw, hm⟩)
      · next m hm =>
        split at h
        · next hf => cases h; exact .inr (.inr ⟨regs, m, hw, hm, hf⟩)
        · cases h

/-- A predicate that every performed cycle keeps is kept by every cycle and every step. -/
theorem invariant_of_commit {P : State → Prop}
    (hc : ∀ (p : Params) (s : State) (regs : Vector Word 8) (m : MemWbLatch × Memory) (f : FrontEnd),
      P s → writebackStage s = .ok regs → memoryStage s = .ok m → frontEnd p s = .ok f →
      P (commit p s regs m f)) :
    (∀ s t : State, P s → step s = .next t → P t) ∧
    (∀ (p : Params) (s t : State), P s → cycle p s = .next t → P t) := by
  have hcycle : ∀ (p : Params) (s t : State), P s → cycle p s = .next t → P t := by
    intro p s t hs h
    rcases cycle_next h with ⟨_, rfl⟩ | ⟨_, regs, m, f, hw, hm, hf, rfl⟩
    · exact hs
    · exact hc p s regs m f hs hw hm hf
  exact ⟨hcycle defaultParams, hcycle⟩

/-- The next EXMEM is the empty latch or what execute leaves (R89). -/
theorem nextExMem_cases (p : Params) (s : State) :
    nextExMem p s = .empty ∨ nextExMem p s = executeStage s := by
  unfold nextExMem
  split
  · exact .inl rfl
  · exact .inr rfl

/-- R89: EXMEM is filled by execute except in a redirect cycle under `SQUASH_EXECUTE`. -/
theorem nextExMem_of_not_squashed {p : Params} {s : State}
    (h : (redirect s && p.squashExecute) = false) : nextExMem p s = executeStage s := by
  simp [nextExMem, h]

/-- The next IDEX is the empty latch or what decode leaves (R82). -/
theorem frontEnd_idex {p : Params} {s : State} {f : FrontEnd} (h : frontEnd p s = .ok f) :
    f.idex = .empty ∨ f.idex = decodeStage p s := by
  rcases frontEnd_ok h with ⟨_, rfl⟩ | ⟨_, _, rfl⟩ | ⟨_, _, _, rfl⟩
  · exact .inl rfl
  · exact .inl rfl
  · exact .inr rfl

/-- In a normal cycle IDEX takes what decode leaves (R82, R83). -/
theorem frontEnd_idex_normal {p : Params} {s : State} {f : FrontEnd} (hr : redirect s = false)
    (hs : stall p s = false) (h : frontEnd p s = .ok f) : f.idex = decodeStage p s := by
  rcases frontEnd_ok h with ⟨hr', _⟩ | ⟨_, hs', _⟩ | ⟨_, _, _, rfl⟩
  · simp [hr] at hr'
  · simp [hs] at hs'
  · rfl

/-- R90: writeback answers unless the destination index is above 7. -/
theorem writebackStage_of_not_faults {s : State} (h : ¬ s.writebackFaults) :
    ∃ regs, writebackStage s = .ok regs := by
  cases hw : writebackStage s with
  | ok regs => exact ⟨regs, rfl⟩
  | error f =>
    exfalso
    obtain ⟨d, hd, hgt, _⟩ := writebackOf_error hw
    rcases destOf_cases s.memwb.instr with ⟨ho, e⟩ | ⟨_, e⟩ | ⟨_, e⟩ <;> rw [e] at hd <;> cases hd
    · exact h ⟨ho, hgt⟩
    · exact absurd (regIndex_lt (fieldB s.memwb.instr)) (by omega)

theorem memoryStage_of_outside {s : State}
    (ho : (opcode s.exmem.instr).toNat = 2 ∨ (opcode s.exmem.instr).toNat = 3)
    (ha : 65535 < s.exmem.aluResult.toNat) :
    memoryStage s = .error (.dataAddressOutOfRange s.exmem.aluResult) := by
  simp [memoryStage, memoryOf_of_outside ho ha, Except.map]

end Sys2Proof.Machine
end

section
/-!
PROOFS. The step lemmas of three invariants: the canonical memories (R30), the form of descriptors
and branch flag (R25) and the zeros of irrelevant fields (R26).
-/

namespace Sys2Proof.Machine

open Sys2Proof Sys2Proof.Config Sys2Proof.Laws

/-! ### The memories stay canonical (R30, R34) -/

theorem memoryOf_wf {w : Word} {m : Memory} {a v : Word} {r : Word × Memory} (hm : m.wf)
    (h : memoryOf w m a v = .ok r) : r.2.wf := by
  rcases memoryOf_ok h with ⟨_, rfl⟩ | ⟨_, _, rfl⟩ | ⟨_, ha, rfl⟩ | ⟨_, rfl⟩
  · exact hm
  · exact hm
  · exact write_wf hm ha v
  · exact hm

theorem completeReg_memoriesWf {s t : State} {d : Imm16} {v : Word} (hs : s.memoriesWf)
    (h : completeReg s d v = .next t) : t.memoriesWf := by
  rcases completeReg_cases s d v with ⟨_, e⟩ | ⟨_, e⟩ <;> rw [e] at h <;> cases h
  exact hs

theorem completeStore_memoriesWf {s t : State} {a v : Word} (hs : s.memoriesWf)
    (h : completeStore s a v = .next t) : t.memoriesWf := by
  rcases completeStore_cases s a v with ⟨ha, e⟩ | ⟨_, e⟩ <;> rw [e] at h <;> cases h
  exact ⟨hs.1, write_wf hs.2 ha v⟩

theorem advance_memoriesWf {s t : State} (hs : s.memoriesWf) (h : advance s = .next t) :
    t.memoriesWf := by
  cases h; exact hs

theorem exec_memoriesWf {i : Instr} {s t : State} (hs : s.memoriesWf) (h : exec i s = .next t) :
    t.memoriesWf := by
  cases i with
  | add a b d => exact completeReg_memoriesWf hs h
  | nor a b d => exact completeReg_memoriesWf hs h
  | lw a b off =>
    rcases memRead_cases s.dataMem (effectiveAddress (readReg s.reg a) (sext16 off)) with
      ⟨_, e⟩ | ⟨_, e⟩ <;> simp only [exec, execLw, e] at h
    · exact completeReg_memoriesWf hs h
    · cases h
  | sw a b off => exact completeStore_memoriesWf hs h
  | beq a b off =>
    simp only [exec, execBeq] at h
    split at h
    · cases h; exact hs
    · exact advance_memoriesWf hs h
  | jalr a b imm => exact advance_memoriesWf hs h
  | halt a b imm => cases h; exact hs
  | noop a b imm => exact advance_memoriesWf hs h

/-- Settles O15: a memory changes only by a write inside the range, and `write_wf` keeps the form. -/
theorem memoriesStayCanonical : Obligations.MemoriesStayCanonical := by
  have hcycle := invariant_of_commit (P := State.memoriesWf)
    fun p s regs m f hs _ hm _ => ⟨hs.1, memoryOf_wf hs.2 (memoryStage_ok hm).1⟩
  exact ⟨hcycle.1, hcycle.2, fun i s t => exec_memoriesWf⟩

/-! ### The form of descriptors and branch flag (R25) -/

theorem clear_wf : Haz.clear.wf := by decide

theorem descriptorOf_scan_wf (p : Params) (s : State) (r : RegNum) (w : Word) :
    (descriptorOf (scan p s r w)).wf := by
  cases h : scan p s r w with
  | none => exact clear_wf
  | forward src =>
    have hsrc : src ≠ .none := fun e => scan_ne_forward_none p s r w (e ▸ h)
    simp [descriptorOf, Haz.wf, hsrc]
  | loadUse => exact clear_wf

theorem descriptorA_wf (p : Params) (s : State) (w : Word) : (descriptorA p s w).wf := by
  unfold descriptorA
  split
  · exact descriptorOf_scan_wf p s _ w
  · exact clear_wf

theorem descriptorB_wf (p : Params) (s : State) (w : Word) : (descriptorB p s w).wf := by
  unfold descriptorB
  split
  · exact descriptorOf_scan_wf p s _ w
  · exact clear_wf

theorem frontEnd_haz_wf {p : Params} {s : State} {f : FrontEnd} (h : frontEnd p s = .ok f) :
    f.idex.hazA.wf ∧ f.idex.hazB.wf := by
  rcases frontEnd_idex h with e | e <;> rw [e]
  · exact ⟨clear_wf, clear_wf⟩
  · exact ⟨descriptorA_wf p s _, descriptorB_wf p s _⟩

theorem nextExMem_haz_wf {p : Params} {s : State} (hA : s.idex.hazA.wf) (hB : s.idex.hazB.wf) :
    (nextExMem p s).hazA.wf ∧ (nextExMem p s).hazB.wf := by
  rcases nextExMem_cases p s with e | e <;> rw [e]
  · exact ⟨clear_wf, clear_wf⟩
  · exact ⟨hA, hB⟩

/-- R87: execute sets the branch flag for a `beq` only. -/
theorem nextExMem_branchFlag {p : Params} {s : State} (h : (nextExMem p s).branchTaken = true) :
    opcode (nextExMem p s).instr = 4#10 := by
  rcases nextExMem_cases p s with e | e <;> rw [e] at h ⊢
  · cases h
  · by_contra hne
    have hop : (opcode s.idex.instr).toNat ≠ 4 := fun ho => hne (BitVec.eq_of_toNat_eq ho)
    simp [branchUnit_of_ne hop] at h

/-- Settles O48: a new descriptor comes from a scan of the window or is clear, the others move on one
latch, and execute sets the branch flag for a `beq` only. -/
theorem latchFormIsInvariant : Obligations.LatchFormIsInvariant := by
  apply invariant_of_commit (P := fun s => s.hazWf ∧ s.branchFlagWf)
  rintro p s regs m f ⟨⟨hdA, hdB, hxA, hxB, hmA, hmB, _, _⟩, _⟩ _ hm hf
  obtain ⟨_, _, hA, hB⟩ := memoryStage_ok hm
  obtain ⟨hfA, hfB⟩ := frontEnd_haz_wf hf
  obtain ⟨hnA, hnB⟩ := nextExMem_haz_wf (p := p) hdA hdB
  refine ⟨⟨hfA, hfB, hnA, hnB, ?_, ?_, hmA, hmB⟩, nextExMem_branchFlag⟩
  · rw [commit_memwb, hA]; exact hxA
  · rw [commit_memwb, hB]; exact hxB

/-! ### Irrelevant fields stay 0 (R26, R27) -/

theorem frontEnd_irrelevantZero {p : Params} {s : State} {f : FrontEnd} (h : frontEnd p s = .ok f) :
    (needsA f.idex.instr = false → f.idex.hazA = .clear) ∧
    (needsB f.idex.instr = false → f.idex.hazB = .clear) := by
  rcases frontEnd_idex h with e | e <;> rw [e]
  · exact ⟨fun _ => rfl, fun _ => rfl⟩
  · exact ⟨fun hA => descriptorA_of_not_needed hA p s, fun hB => descriptorB_of_not_needed hB p s⟩

theorem nextExMem_irrelevantZero (p : Params) (s : State) :
    (usesAlu (nextExMem p s).instr = false → (nextExMem p s).aluResult = 0) ∧
    (isBeq (nextExMem p s).instr = false →
      (nextExMem p s).branchTarget = 0 ∧ (nextExMem p s).branchTaken = false) := by
  rcases nextExMem_cases p s with e | e <;> rw [e]
  · exact ⟨fun _ => rfl, fun _ => ⟨rfl, rfl⟩⟩
  · constructor
    · intro hu
      exact aluResultOf_of_gt ((usesAlu_eq_false_iff _).mp hu) _ _ _
    · intro hb
      have hop : (opcode s.idex.instr).toNat ≠ 4 := by simp [← isBeq_iff, ← executeStage_instr, hb]
      simp [branchUnit_of_ne hop]

/-- R88: the memory stage answers 0 for every word that produces no value. -/
theorem memoryStage_irrelevantZero {s : State} {m : MemWbLatch × Memory}
    (h : memoryStage s = .ok m) : producesValue m.1.instr = false → m.1.writeData = 0 := by
  obtain ⟨hmem, hinstr, _, _⟩ := memoryStage_ok h
  intro hp
  have hop : 2 < (opcode s.exmem.instr).toNat := by
    rwa [hinstr, producesValue_eq_false_iff] at hp
  rcases memoryOf_ok hmem with ⟨ho, _⟩ | ⟨ho, _⟩ | ⟨_, _, e⟩ | ⟨_, e⟩
  · omega
  · omega
  · exact congrArg Prod.fst e
  · exact congrArg Prod.fst e

/-- Settles O49: each stage writes 0 into the fields its occupant does not use, and WBEND is a copy of
MEMWB. -/
theorem irrelevantFieldsStayZero : Obligations.IrrelevantFieldsStayZero := by
  apply invariant_of_commit (P := State.irrelevantZero)
  rintro p s regs m f ⟨_, _, _, _, hwb, _⟩ _ hm hf
  obtain ⟨hA, hB⟩ := frontEnd_irrelevantZero hf
  obtain ⟨halu, hbr⟩ := nextExMem_irrelevantZero p s
  exact ⟨hA, hB, halu, hbr, memoryStage_irrelevantZero hm, hwb⟩

end Sys2Proof.Machine
end

section
/-!
PROOFS. Memories as data, the register file, the loader and the reset state (R11, R28, R30, R121).
-/

namespace Sys2Proof.Machine

open Sys2Proof Sys2Proof.Config Sys2Proof.Laws

/-! ### Canonical memories (R30) -/

/-- An address below every listed one reads as unlisted. -/
theorem find_of_below {c : List (Nat × Word)} {a : Nat} (h : ∀ x ∈ c, a < x.1) :
    Memory.find c a = Memory.unlisted := by
  induction c with
  | nil => rfl
  | cons hd rest ih =>
    obtain ⟨k, x⟩ := hd
    have hk : k ≠ a := (h (k, x) (.head _)).ne'
    simp only [Memory.find, if_neg hk]
    exact ih fun y hy => h y (.tail _ hy)

/-- In a list of rising addresses without listed defaults the cells are the words that are not the
default. -/
theorem mem_cells_iff {c : List (Nat × Word)} (hrise : c.Pairwise (fun x y => x.1 < y.1))
    (hne : ∀ x ∈ c, x.2 ≠ Memory.unlisted) (a : Nat) (v : Word) :
    (a, v) ∈ c ↔ Memory.find c a = v ∧ v ≠ Memory.unlisted := by
  induction c with
  | nil => simpa [Memory.find] using fun h => h.symm
  | cons hd rest ih =>
    obtain ⟨k, x⟩ := hd
    obtain ⟨hk, hrest⟩ := List.pairwise_cons.mp hrise
    obtain ⟨hx, hnerest⟩ := List.forall_mem_cons.mp hne
    by_cases hka : k = a
    · subst hka
      have hnot : (k, v) ∉ rest := fun hm => lt_irrefl k (hk _ hm)
      simp only [Memory.find, if_true, List.mem_cons, Prod.mk.injEq, true_and, hnot, or_false]
      exact ⟨fun h => ⟨h.symm, h ▸ hx⟩, fun h => h.1.symm⟩
    · simp [Memory.find, hka, Ne.symm hka, ih hrest hnerest]

/-- Settles O16: canonical memories that read the same list the same cells, and a rising list is
determined by its members. -/
theorem equalReadsEqualMemory : Obligations.EqualReadsEqualMemory := by
  rintro ⟨c⟩ ⟨c'⟩ ⟨hrise, hin⟩ ⟨hrise', hin'⟩ hread
  have hmem : ∀ x : Nat × Word, x ∈ c ↔ x ∈ c' := by
    rintro ⟨a, v⟩
    have ha : Memory.find c a = Memory.find c' a := hread a
    rw [mem_cells_iff hrise (fun x hx => (hin x hx).2),
      mem_cells_iff hrise' (fun x hx => (hin' x hx).2), ha]
  have hnodup : ∀ {l : List (Nat × Word)}, l.Pairwise (fun x y => x.1 < y.1) → l.Nodup :=
    fun h => h.imp fun hlt he => hlt.ne (congrArg Prod.fst he)
  have hperm : c.Perm c' := (List.perm_ext_iff_of_nodup (hnodup hrise) (hnodup hrise')).mpr hmem
  have hcells : c = c' :=
    hperm.eq_of_pairwise (fun _ _ _ _ h h' => absurd h' h.asymm) hrise hrise'
  rw [hcells]

/-! ### The register file (R11) -/

theorem readReg_set_same (regs : Vector Word 8) (r : RegNum) (v : Word) :
    readReg (regs.set r.toNat v r.isLt) r = v := by
  simp [readReg_set]

theorem readReg_set_other (regs : Vector Word 8) {r q : RegNum} (h : q ≠ r) (v : Word) :
    readReg (regs.set r.toNat v r.isLt) q = readReg regs q := by
  have hne : r.toNat ≠ q.toNat := fun e => h (BitVec.eq_of_toNat_eq e.symm)
  simp [readReg_set, hne]

/-- Settles O17: both parts are one register write through `regIndex`. -/
theorem everyRegisterIsWritable : Obligations.EveryRegisterIsWritable := by
  refine ⟨fun regs r v => ⟨_, writeReg_regIndex regs r v, readReg_set_same regs r v,
    fun q hq => readReg_set_other regs hq v⟩, ?_⟩
  intro p s t r hh h hdest
  obtain ⟨regs, m, f, hw, _, _, rfl⟩ := cycle_performed hh h
  have hregs : regs = s.reg.set r.toNat s.memwb.writeData r.isLt := by
    simpa [writebackStage, writebackOf, hdest, writeReg_regIndex] using hw.symm
  rw [commit_reg, hregs]
  exact ⟨readReg_set_same _ r _, fun q hq => readReg_set_other _ hq _⟩

/-! ### The loader (R28, R120, R121) -/

/-- The cells of an image read as its words, from the address of the first (R28). -/
theorem find_imageCells (image : List Word) (a i : Nat) :
    Memory.find (imageCells a image) (a + i) = image.getD i 0 := by
  induction image generalizing a i with
  | nil => rfl
  | cons w rest ih =>
    cases i with
    | zero =>
      by_cases hw : w = Memory.unlisted
      · have hbelow : ∀ x ∈ imageCells (a + 1) rest, a + 0 < x.1 := fun x hx => by
          have := (mem_imageCells hx).1
          omega
        simpa [imageCells, hw] using find_of_below hbelow
      · simp [imageCells, hw, Memory.find]
    | succ j =>
      have hshift : a + (j + 1) = a + 1 + j := by omega
      by_cases hw : w = Memory.unlisted
      · simpa [imageCells, hw, hshift] using ih (a + 1) j
      · have hne : a ≠ a + 1 + j := by omega
        simpa [imageCells, hw, hshift, Memory.find, hne] using ih (a + 1) j

theorem read_ofImage (image : List Word) (a : Nat) :
    (Memory.ofImage image).read a = image.getD a 0 := by
  have h := find_imageCells image 0 a
  rwa [Nat.zero_add] at h

theorem readReg_reset (r : RegNum) : readReg State.reset.reg r = 0 := by
  simp [readReg, State.reset]

theorem reset_halted : State.reset.halted = false := by decide

/-- The state that `State.load` answers for an image that fits (`load_of_le`). -/
def State.ofImage (image : List Word) : State :=
  { State.reset with
    instrMem := Memory.ofImage image
    dataMem := Memory.ofImage image
    progLen := image.length }

/-- R28: the reset state of an image that fits. -/
theorem load_of_le {image : List Word} (h : image.length ≤ memWords) :
    State.load image = some (State.ofImage image) :=
  if_pos h

/-- R121: an image longer than the memories is no reset state. -/
theorem load_of_gt {image : List Word} (h : memWords < image.length) : State.load image = none :=
  if_neg (Nat.not_le.mpr h)

/-- What `State.load` can answer: the reset state of an image that fits. -/
theorem load_eq_some {image : List Word} {s : State} (h : State.load image = some s) :
    image.length ≤ memWords ∧ s = State.ofImage image := by
  by_cases hfit : image.length ≤ memWords
  · exact ⟨hfit, Option.some.inj (h.symm.trans (load_of_le hfit))⟩
  · simp [load_of_gt (Nat.not_le.mp hfit)] at h

/-- Settles O9: pc, registers, counter and latches are those of `State.reset`, the memories read as the
image. -/
theorem resetStateOfImage : Obligations.ResetStateOfImage := by
  intro image h
  exact ⟨_, load_of_le h, rfl, readReg_reset, rfl,
    fun a _ => ⟨read_ofImage image a, read_ofImage image a⟩, rfl, rfl, rfl, rfl, rfl, rfl, reset_halted⟩

/-- D17: a decimal line in range stands for its value modulo 2^32. -/
theorem lineWord_of_inRange {v : Int} (h : -(2 ^ 31) ≤ v) (h' : v < 2 ^ 32) :
    lineWord v = some (BitVec.ofInt 32 v) :=
  if_pos ⟨h, h'⟩

theorem lineWord_of_outside {v : Int} (h : v < -(2 ^ 31) ∨ 2 ^ 32 ≤ v) : lineWord v = none :=
  if_neg (by omega)

theorem ofInt_toNat_eq_emod (v : Int) : ((BitVec.ofInt 32 v).toNat : Int) = v % 2 ^ 32 := by
  rw [BitVec.toNat_ofInt, Int.toNat_of_nonneg (Int.emod_nonneg _ (by decide))]
  rfl

/-- The unsigned decimal line of a word stands for that word. -/
theorem lineWord_toNat (w : Word) : lineWord (w.toNat : Int) = some w := by
  have hw := w.isLt
  rw [lineWord_of_inRange (by omega) (by omega), BitVec.ofInt_natCast, BitVec.ofNat_toNat,
    BitVec.setWidth_eq]

theorem mapM_lineWord_toNat (image : List Word) :
    (image.map fun w => (w.toNat : Int)).mapM lineWord = some image := by
  induction image with
  | nil => rfl
  | cons w rest ih => simp [lineWord_toNat, ih]

/-- Settles O10: the decimal line of each word of an image gives that word back, so the lines load as
the image. -/
theorem imagesAndLinesTheLoaderTakes : Obligations.ImagesAndLinesTheLoaderTakes := by
  refine ⟨rfl, rfl, fun image h => load_of_gt h,
    fun v h h' => ⟨_, lineWord_of_inRange h h', ofInt_toNat_eq_emod v⟩,
    fun v => lineWord_of_outside, fun image => ?_⟩
  rw [State.loadLines, mapM_lineWord_toNat]
  rfl

/-! ### The invariants at reset (R28) -/

/-- With nothing in flight and an empty WBEND, all the invariants on latches hold, whatever the rest
of the state. -/
theorem latch_invariants_of_empty {s : State} (hd : s.drained) (hw : s.wbend = .empty) :
    s.hazWf ∧ s.branchFlagWf ∧ s.irrelevantZero ∧ s.fetchCoherent ∧ s.hazSourced ∧
      s.operandsCoherent := by
  obtain ⟨hf, hi, hx, hm⟩ := hd
  simp only [State.hazWf, State.branchFlagWf, State.irrelevantZero, State.fetchCoherent,
    State.hazSourced, State.operandsCoherent, State.sourced, hf, hi, hx, hm, hw]
  refine ⟨by decide, by decide, by decide, ⟨.inl ⟨rfl, rfl⟩, .inl ⟨rfl, rfl⟩, by decide⟩, ?_, ?_⟩
  · exact ⟨fun h => absurd h (by decide), fun h => absurd h (by decide)⟩
  · exact ⟨fun h => absurd h (by decide), fun h => absurd h (by decide)⟩

/-- Settles O53: every reset state has canonical memories and empty latches. -/
theorem invariantsHoldAtReset : Obligations.InvariantsHoldAtReset := by
  have hreset : State.reset.drained := ⟨rfl, rfl, rfl, rfl⟩
  refine ⟨⟨reset_wf, latch_invariants_of_empty hreset rfl⟩, fun image s h => ?_⟩
  obtain ⟨hfit, rfl⟩ := load_eq_some h
  obtain ⟨hhaz, hflag, hzero, hfetch, hsourced, hoperands⟩ :=
    latch_invariants_of_empty (s := State.ofImage image) hreset rfl
  exact ⟨⟨ofImage_wf hfit, ofImage_wf hfit⟩, hhaz, hflag, hzero, hfetch, hsourced, hoperands, hreset⟩

end Sys2Proof.Machine
end

section
/-!
PROOFS. The stages of a performed cycle by opcode field: execute (R85 to R87), memory (R88), idle and
unrecognised words (R71, R74, R75), and WBEND (R24).
-/

namespace Sys2Proof.Machine

open Sys2Proof Sys2Proof.Config Sys2Proof.Laws

/-! ### Execute (R85, R86, R87) -/

/-- R85: a value that agrees with the latch a well-formed descriptor names is the operand. -/
theorem operand_eq_of_selected {s : State} {h : Haz} {v x : Word}
    (habsent : h.present = false → x = v) (hex : h = ⟨true, .ex⟩ → x = s.exmem.aluResult)
    (hmem : h = ⟨true, .mem⟩ → x = s.memwb.writeData)
    (hwb : h = ⟨true, .wb⟩ → x = s.wbend.writeData) (hwf : h.wf) : x = operand s h v := by
  obtain ⟨present, src⟩ := h
  cases present with
  | false => exact habsent rfl
  | true =>
    cases src with
    | none => exact absurd (hwf.mpr rfl) (by decide)
    | ex => exact hex rfl
    | mem => exact hmem rfl
    | wb => exact hwb rfl

/-- Settles O29: the given values are the operands of R85, and execute is `aluResultOf` and
`branchUnit` on them. -/
theorem executeFillsExMem : Obligations.ExecuteFillsExMem := by
  intro p s t a b hh hsq h hA hAex hAmem hAwb hAwf hB hBex hBmem hBwb hBwf
  obtain ⟨regs, m, f, _, _, _, rfl⟩ := cycle_performed hh h
  obtain rfl : a = operandA s := operand_eq_of_selected hA hAex hAmem hAwb hAwf
  obtain rfl : b = operandB s := operand_eq_of_selected hB hBex hBmem hBwb hBwf
  rw [commit_exmem, nextExMem_of_not_squashed hsq]
  refine ⟨rfl, rfl, rfl, rfl, fun ho => ?add, fun ho => ?nor, fun ho => ?access,
    fun ho => aluResultOf_of_gt ho _ _ _, fun ho => ?beq, fun ho => ?other⟩
  case add => simp [aluResultOf_eq, ho]
  case nor => simp [aluResultOf_eq, ho]
  case access => rcases ho with ho | ho <;> simp [aluResultOf_eq, ho]
  case beq => simp [branchUnit_of_beq ho]
  case other => simp [branchUnit_of_ne ho]

/-! ### Memory (R88) -/

/-- Settles O31: `memoryOf_ok` names the four things the stage can do, one for each clause. -/
theorem memoryStageByOpcode : Obligations.MemoryStageByOpcode := by
  intro p s hh
  constructor
  · intro ho ha hwf
    obtain ⟨regs, hw⟩ := writebackStage_of_not_faults hwf
    exact cycle_of_memory_error hh hw (memoryStage_of_outside ho ha)
  · intro t h
    obtain ⟨regs, ⟨l, d⟩, f, _, hm, _, rfl⟩ := cycle_performed hh h
    obtain ⟨hmem, hinstr, hA, hB⟩ := memoryStage_ok hm
    refine ⟨hinstr, hA, hB, ?_⟩
    rcases memoryOf_ok hmem with ⟨ho, e⟩ | ⟨ho, ha, e⟩ | ⟨ho, ha, e⟩ | ⟨ho, e⟩ <;>
      obtain ⟨hdata, rfl⟩ := Prod.mk.inj e <;> rw [commit_memwb, commit_dataMem, hdata]
    case inl =>
      exact ⟨fun _ => rfl, fun ho' => absurd ho' (by omega), fun ho' => absurd ho' (by omega),
        fun ho' => absurd ho' (by omega), fun _ => rfl, rfl⟩
    case inr.inl =>
      exact ⟨fun ho' => absurd ho' (by omega), fun _ => ⟨Nat.le_of_lt_succ ha, rfl⟩,
        fun ho' => absurd ho' (by omega), fun ho' => absurd ho' (by omega), fun _ => rfl, rfl⟩
    case inr.inr.inl =>
      exact ⟨fun ho' => absurd ho' (by omega), fun ho' => absurd ho' (by omega),
        fun _ => ⟨Nat.le_of_lt_succ ha, rfl, read_write_same _ _ _, fun x hx => read_write_other _ _ hx⟩,
        fun ho' => absurd ho' (by omega), fun ho' => absurd ho ho', rfl⟩
    case inr.inr.inr =>
      exact ⟨fun ho' => absurd ho' (by omega), fun ho' => absurd ho' (by omega),
        fun ho' => absurd ho' (by omega), fun _ => rfl, fun _ => rfl, rfl⟩

/-! ### Words that do nothing (R71, R74, R75) -/

/-- Settles O45: every stage function acts only on other opcodes than 5 and 7. -/
theorem jalrAndNoopAreIdleInEveryStage : Obligations.JalrAndNoopAreIdleInEveryStage := by
  intro w ho
  have hgt : 4 < (opcode w).toNat := by omega
  have hdest : destOf w = none := (destOf_eq_none_iff w).mpr (by omega)
  exact ⟨needsA_of_gt hgt, needsB_of_gt hgt, hdest, aluResultOf_of_gt (by omega),
    branchUnit_of_ne (by omega), memoryOf_of_gt (by omega), writebackOf_of_none hdest,
    fun s hs => redirect_of_ne (by rw [hs]; omega), fun s hs => halted_of_ne (by rw [hs]; omega)⟩

theorem opcode_gt_seven_iff (w : Word) : 7 < (opcode w).toNat ↔ w.toNat / 2 ^ 25 ≠ 0 := by
  rw [opcode_toNat]; omega

/-- Settles O44: each latch position in turn. -/
theorem unrecognisedWordIsCarriedAsNoop : Obligations.UnrecognisedWordIsCarriedAsNoop := by
  refine ⟨opcode_gt_seven_iff, fun p s t hh h => ?_⟩
  obtain ⟨regs, m, f, hw, hm, hf, rfl⟩ := cycle_performed hh h
  obtain ⟨hmem, hinstr, _, _⟩ := memoryStage_ok hm
  refine ⟨fun ho hr => ?ifid, fun ho => ⟨loadUse_of_not_load (by omega),
    (destOf_eq_none_iff _).mpr (by omega), fun hsq => ?idex⟩, fun ho => ?exmem, fun ho => ?memwb⟩
  case ifid =>
    have hA : needsA s.ifid.instr = false := needsA_of_gt (by omega)
    have hB : needsB s.ifid.instr = false := needsB_of_gt (by omega)
    have hs : stall p s = false := stall_of_loadUse_false (loadUse_of_not_needed hA hB)
    rw [commit_idex, frontEnd_idex_normal hr hs hf]
    exact ⟨hs, rfl, descriptorA_of_not_needed hA p s, descriptorB_of_not_needed hB p s⟩
  case idex =>
    have hx : (commit p s regs m f).exmem = executeStage s := nextExMem_of_not_squashed hsq
    have hne : (opcode s.idex.instr).toNat ≠ 4 := by omega
    refine ⟨?_, ?_, ?_, redirect_of_ne ?_⟩ <;> rw [hx]
    · rfl
    · exact aluResultOf_of_gt (by omega) _ _ _
    · simp [branchUnit_of_ne hne]
    · exact hne
  case exmem =>
    rw [memoryOf_of_gt (by omega)] at hmem
    obtain ⟨hdata, hkeep⟩ := Prod.mk.inj (Except.ok.inj hmem)
    refine ⟨redirect_of_ne (by omega), (destOf_eq_none_iff _).mpr (by omega), hinstr, hdata.symm,
      hkeep.symm, halted_of_ne ?_⟩
    rw [commit_memwb, hinstr]
    omega
  case memwb =>
    have hdest : destOf s.memwb.instr = none := (destOf_eq_none_iff _).mpr (by omega)
    have hregs : regs = s.reg := by
      simpa [writebackStage, writebackOf_of_none hdest] using hw.symm
    exact ⟨hdest, hregs, rfl⟩

/-! ### WBEND (R24) -/

/-- R85: an operand whose descriptor is not `(true, SRC_WB)` does not read WBEND. -/
theorem operand_withWbEnd (s : State) (x : WbEndLatch) {h : Haz} (hne : h ≠ ⟨true, .wb⟩) (v : Word) :
    operand { s with wbend := x } h v = operand s h v := by
  obtain ⟨present, src⟩ := h
  cases present with
  | false => rfl
  | true =>
    cases src with
    | wb => exact absurd rfl hne
    | none => rfl
    | ex => rfl
    | mem => rfl

/-- Settles O46: of all the parts of a cycle only the two operands read WBEND. -/
theorem wbEndOnlyFeedsForwarding : Obligations.WbEndOnlyFeedsForwarding := by
  intro p s x hh hA hB
  have hopA : operandA { s with wbend := x } = operandA s := operand_withWbEnd s x hA _
  have hopB : operandB { s with wbend := x } = operandB s := operand_withWbEnd s x hB _
  have hexec : executeStage { s with wbend := x } = executeStage s := by
    simp only [executeStage, hopA, hopB]
  refine cycle_congr hh hh rfl rfl rfl fun regs m f => ?_
  simp only [commit, nextExMem, hexec]
  rfl

end Sys2Proof.Machine
end

section
/-!
PROOFS. Noninterference (R26, R27): two states that agree on the relevant fields have the same front
end, writeback and memory results, select the same needed operands, and so agree again after a cycle.
-/

namespace Sys2Proof.Machine

open Sys2Proof Sys2Proof.Config Sys2Proof.Laws

/-- R86: the ALU result depends on operand A where the word needs it, and on operand B for `add` and
`nor` only, which need it too. -/
theorem aluResultOf_congr {w a b a' b' : Word} (ha : needsA w = true → a = a')
    (hb : needsB w = true → b = b') (off : Word) :
    aluResultOf w a b off = aluResultOf w a' b' off := by
  rw [needsA_iff] at ha
  rw [needsB_iff] at hb
  simp only [aluResultOf_eq]
  split_ifs with h0 h1 h3
  · rw [ha (by omega), hb (by omega)]
  · rw [ha (by omega), hb (by omega)]
  · rw [ha (by omega)]
  · rfl

/-- R87: the branch unit reads its operands for a `beq` only, which needs both. -/
theorem branchUnit_congr {w a b a' b' : Word} (ha : needsA w = true → a = a')
    (hb : needsB w = true → b = b') (q off : Word) :
    branchUnit w a b q off = branchUnit w a' b' q off := by
  by_cases h : (opcode w).toNat = 4
  · rw [ha ((needsA_iff w).mpr (by omega)), hb ((needsB_iff w).mpr (by omega))]
  · rw [branchUnit_of_ne h, branchUnit_of_ne h]

/-- R88: the memory stage depends on the ALU result where the opcode makes it relevant, and on the value
to store where operand B is needed. -/
theorem memoryOf_congr {w a v a' v' : Word} (ha : usesAlu w = true → a = a')
    (hv : needsB w = true → v = v') (m : Memory) : memoryOf w m a v = memoryOf w m a' v' := by
  by_cases h : 3 < (opcode w).toNat
  · rw [memoryOf_of_gt h, memoryOf_of_gt h]
  · obtain rfl := ha (decide_eq_true (by omega))
    rw [needsB_iff] at hv
    simp only [memoryOf_eq]
    split_ifs with h1 h2 h3
    · rfl
    · rfl
    · rw [hv (by omega)]
    · rfl

/-- R90: writeback depends on its value where the word has a destination. -/
theorem writebackOf_congr {w v v' : Word} (h : producesValue w = true → v = v')
    (regs : Vector Word 8) : writebackOf w regs v = writebackOf w regs v' := by
  cases hd : destOf w with
  | none => rw [writebackOf_of_none hd, writebackOf_of_none hd]
  | some d => rw [h (producesValue_of_destOf hd)]

/-- R128: a scan reads the three words of the window. -/
theorem scan_congr {s s' : State} (hi : s.idex.instr = s'.idex.instr)
    (hx : s.exmem.instr = s'.exmem.instr) (hm : s.memwb.instr = s'.memwb.instr) (p : Params) :
    scan p s = scan p s' := by
  have hwindow : window s = window s' := by simp only [window, hi, hx, hm]
  funext r w
  simp only [scan, hwindow]

/-- `State.sameRelevant` on EXMEM, with a name for each part. -/
structure ExMemLatch.Agree (x y : ExMemLatch) : Prop where
  instr  : x.instr = y.instr
  branch : isBeq x.instr = true →
    x.branchTarget = y.branchTarget ∧ x.branchTaken = y.branchTaken
  alu    : usesAlu x.instr = true → x.aluResult = y.aluResult
  regB   : needsB x.instr = true → x.readRegB = y.readRegB

/-- `State.sameRelevant` with a name for each part (`agree_iff`). -/
structure State.Agree (s s' : State) : Prop where
  pc         : s.pc = s'.pc
  reg        : s.reg = s'.reg
  cycles     : s.cycles = s'.cycles
  instrMem   : s.instrMem = s'.instrMem
  dataMem    : s.dataMem = s'.dataMem
  progLen    : s.progLen = s'.progLen
  ifid       : s.ifid = s'.ifid
  idexInstr  : s.idex.instr = s'.idex.instr
  idexPc     : s.idex.pcPlus1 = s'.idex.pcPlus1
  idexRegA   : s.idex.readRegA = s'.idex.readRegA
  idexRegB   : s.idex.readRegB = s'.idex.readRegB
  idexOffset : s.idex.offset = s'.idex.offset
  idexHazA   : needsA s.idex.instr = true → s.idex.hazA = s'.idex.hazA
  idexHazB   : needsB s.idex.instr = true → s.idex.hazB = s'.idex.hazB
  exmem      : s.exmem.Agree s'.exmem
  memwbInstr : s.memwb.instr = s'.memwb.instr
  memwbData  : producesValue s.memwb.instr = true → s.memwb.writeData = s'.memwb.writeData
  wbendInstr : s.wbend.instr = s'.wbend.instr
  wbendData  : producesValue s.wbend.instr = true → s.wbend.writeData = s'.wbend.writeData

theorem agree_iff (s s' : State) : s.Agree s' ↔ s.sameRelevant s' := by
  constructor
  · intro h
    exact ⟨h.pc, h.reg, h.cycles, h.instrMem, h.dataMem, h.progLen, h.ifid,
      ⟨h.idexInstr, h.idexPc, h.idexRegA, h.idexRegB, h.idexOffset, h.idexHazA, h.idexHazB⟩,
      ⟨h.exmem.instr, h.exmem.branch, h.exmem.alu, h.exmem.regB⟩,
      ⟨h.memwbInstr, h.memwbData⟩, ⟨h.wbendInstr, h.wbendData⟩⟩
  · rintro ⟨hpc, hreg, hcycles, himem, hdmem, hlen, hifid, ⟨hi, hipc, hia, hib, hioff, hiA, hiB⟩,
      ⟨hx, hxbr, hxalu, hxB⟩, ⟨hm, hmdata⟩, ⟨hw, hwdata⟩⟩
    exact ⟨hpc, hreg, hcycles, himem, hdmem, hlen, hifid, hi, hipc, hia, hib, hioff, hiA, hiB,
      ⟨hx, hxbr, hxalu, hxB⟩, hm, hmdata, hw, hwdata⟩

section Agree
variable {s s' : State}

theorem State.Agree.halted (h : s.Agree s') : s.halted = s'.halted := by
  simp only [State.halted, h.memwbInstr]

/-- R134: the branch flag counts only behind the test for a `beq`. -/
theorem State.Agree.redirect (h : s.Agree s') : redirect s = redirect s' := by
  by_cases hop : isBeq s.exmem.instr = true
  · simp only [Machine.redirect, ← h.exmem.instr, (h.exmem.branch hop).2]
  · rw [isBeq_iff] at hop
    rw [redirect_of_ne hop, redirect_of_ne (h.exmem.instr ▸ hop)]

/-- R82: the front end reads relevant fields only. -/
theorem State.Agree.frontEnd (h : s.Agree s') (p : Params) : frontEnd p s = frontEnd p s' := by
  have hscan : scan p s = scan p s' :=
    scan_congr h.idexInstr h.exmem.instr h.memwbInstr p
  have hstall : stall p s = stall p s' := by
    simp only [stall, loadUse, h.ifid, hscan, h.redirect]
  have hdecode : decodeStage p s = decodeStage p s' := by
    simp only [decodeStage, descriptorA, descriptorB, h.ifid, h.reg, hscan]
  cases hred : Machine.redirect s with
  | true =>
    have htarget := (h.exmem.branch ((isBeq_iff _).mpr ((redirect_iff s).mp hred).1)).1
    simp only [Machine.frontEnd, ← h.redirect, hred, if_true, htarget]
  | false =>
    simp only [Machine.frontEnd, ← h.redirect, hred, hstall, h.pc, h.instrMem, h.ifid, hdecode,
      Bool.false_eq_true, if_false]

/-- R90: writeback reads relevant fields only. -/
theorem State.Agree.writebackStage (h : s.Agree s') : writebackStage s = writebackStage s' := by
  rw [Machine.writebackStage, Machine.writebackStage, ← h.memwbInstr, ← h.reg]
  exact writebackOf_congr h.memwbData s.reg

/-- R88: the memory access reads relevant fields only. -/
theorem State.Agree.memoryOf (h : s.Agree s') :
    memoryOf s.exmem.instr s.dataMem s.exmem.aluResult s.exmem.readRegB =
      memoryOf s'.exmem.instr s'.dataMem s'.exmem.aluResult s'.exmem.readRegB := by
  rw [← h.exmem.instr, ← h.dataMem]
  exact memoryOf_congr h.exmem.alu h.exmem.regB s.dataMem

/-- R88: where the memory stage of one answers, so does that of the other, with the same word, value
and data memory (the descriptors it copies may differ). -/
theorem State.Agree.memoryStage_ok (h : s.Agree s') {m : MemWbLatch × Memory}
    (hm : memoryStage s = .ok m) :
    ∃ m', memoryStage s' = .ok m' ∧ m.1.instr = m'.1.instr ∧ m.1.writeData = m'.1.writeData ∧
      m.2 = m'.2 := by
  obtain ⟨hmem, hinstr, _, _⟩ := Machine.memoryStage_ok hm
  rw [h.memoryOf] at hmem
  exact ⟨(⟨s'.exmem.instr, m.1.writeData, s'.exmem.hazA, s'.exmem.hazB⟩, m.2),
    by rw [memoryStage, hmem]; rfl, hinstr.trans h.exmem.instr, rfl, rfl⟩

theorem State.Agree.memoryStage_error (h : s.Agree s') {f : Fault}
    (hm : memoryStage s = .error f) : memoryStage s' = .error f := by
  rw [memoryStage] at hm ⊢
  rw [← h.memoryOf]
  cases e : Machine.memoryOf s.exmem.instr s.dataMem s.exmem.aluResult s.exmem.readRegB with
  | error g => rw [e] at hm; cases hm; rfl
  | ok r => rw [e] at hm; cases hm

/-- R85: a descriptor that points at a producer selects a relevant field, so the operand is the same. -/
theorem State.Agree.operand (h : s.Agree s') {d : Haz} {r : RegNum} (hd : s.sourced d r) (v : Word) :
    operand s d v = operand s' d v := by
  obtain ⟨present, src⟩ := d
  cases present with
  | false => rfl
  | true =>
    rcases hd rfl with ⟨rfl, ho, _⟩ | ⟨rfl, hdest⟩ | ⟨rfl, hdest⟩
    · exact h.exmem.alu (decide_eq_true (by omega))
    · exact h.memwbData (producesValue_of_destOf hdest)
    · exact h.wbendData (producesValue_of_destOf hdest)

theorem State.Agree.operandA (h : s.Agree s') (hs : s.hazSourced)
    (hn : needsA s.idex.instr = true) : operandA s = operandA s' := by
  rw [Machine.operandA, Machine.operandA, ← h.idexRegA, ← h.idexHazA hn]
  exact h.operand hs.1 _

theorem State.Agree.operandB (h : s.Agree s') (hs : s.hazSourced)
    (hn : needsB s.idex.instr = true) : operandB s = operandB s' := by
  rw [Machine.operandB, Machine.operandB, ← h.idexRegB, ← h.idexHazB hn]
  exact h.operand hs.2 _

/-- R86, R87: execute leaves latches that agree. -/
theorem State.Agree.executeStage (h : s.Agree s') (hs : s.hazSourced) :
    (executeStage s).Agree (executeStage s') where
  instr := h.idexInstr
  branch _ := by
    have hbr := branchUnit_congr (h.operandA hs) (h.operandB hs) s.idex.pcPlus1 s.idex.offset
    rw [executeStage_branchTarget, executeStage_branchTarget, executeStage_branchTaken,
      executeStage_branchTaken, hbr, h.idexInstr, h.idexPc, h.idexOffset]
    exact ⟨rfl, rfl⟩
  alu _ := by
    rw [executeStage_aluResult, executeStage_aluResult,
      aluResultOf_congr (h.operandA hs) (h.operandB hs), h.idexInstr, h.idexOffset]
  regB := h.operandB hs

theorem State.Agree.nextExMem (h : s.Agree s') (hs : s.hazSourced) (p : Params) :
    (nextExMem p s).Agree (nextExMem p s') := by
  rw [Machine.nextExMem, Machine.nextExMem, ← h.redirect]
  split
  · exact ⟨rfl, fun _ => ⟨rfl, rfl⟩, fun _ => rfl, fun _ => rfl⟩
  · exact h.executeStage hs

/-- Committing the same registers and front end, and memory results that agree, leaves states that
agree. -/
theorem State.Agree.commit (h : s.Agree s') (hs : s.hazSourced) (p : Params) (regs : Vector Word 8)
    (f : FrontEnd) {m m' : MemWbLatch × Memory} (hinstr : m.1.instr = m'.1.instr)
    (hdata : m.1.writeData = m'.1.writeData) (hmem : m.2 = m'.2) :
    (commit p s regs m f).Agree (commit p s' regs m' f) where
  pc := rfl
  reg := rfl
  cycles := congrArg (· + 1) h.cycles
  instrMem := h.instrMem
  dataMem := hmem
  progLen := h.progLen
  ifid := rfl
  idexInstr := rfl
  idexPc := rfl
  idexRegA := rfl
  idexRegB := rfl
  idexOffset := rfl
  idexHazA _ := rfl
  idexHazB _ := rfl
  exmem := h.nextExMem hs p
  memwbInstr := hinstr
  memwbData _ := hdata
  wbendInstr := h.memwbInstr
  wbendData := h.memwbData

theorem State.Agree.cycle_next (h : s.Agree s') (hs : s.hazSourced) {p : Params} {t : State}
    (hc : cycle p s = .next t) : ∃ t', cycle p s' = .next t' ∧ t.Agree t' := by
  rcases Machine.cycle_next hc with ⟨hh, rfl⟩ | ⟨hh, regs, m, f, hw, hm, hf, rfl⟩ <;>
    rw [h.halted] at hh
  · exact ⟨s', cycle_of_halted hh p, h⟩
  · obtain ⟨m', hm', hinstr, hdata, hmem⟩ := h.memoryStage_ok hm
    rw [h.writebackStage] at hw
    rw [h.frontEnd] at hf
    exact ⟨_, cycle_of_stages hh hw hm' hf, h.commit hs p regs f hinstr hdata hmem⟩

theorem State.Agree.cycle_fault (h : s.Agree s') {p : Params} {f : Fault}
    (hc : cycle p s = .fault f) : cycle p s' = .fault f := by
  obtain ⟨hh, hstage⟩ := Machine.cycle_fault hc
  rw [h.halted] at hh
  rw [h.writebackStage, h.frontEnd] at hstage
  rcases hstage with hw | ⟨regs, hw, hm⟩ | ⟨regs, m, hw, hm, hf⟩
  · exact cycle_of_writeback_error hh hw
  · exact cycle_of_memory_error hh hw (h.memoryStage_error hm)
  · obtain ⟨m', hm', _⟩ := h.memoryStage_ok hm
    exact cycle_of_fetch_error hh hw hm' hf

end Agree

/-- Settles O55: every stage reads relevant fields only; execute does because the descriptors point at
producers. -/
theorem irrelevantFieldsDoNotMatter : Obligations.IrrelevantFieldsDoNotMatter := by
  intro p s s' hsame hs _
  have h : s.Agree s' := (agree_iff s s').mpr hsame
  refine ⟨fun t hc => ?_, fun f => h.cycle_fault⟩
  obtain ⟨t', hc', ht⟩ := h.cycle_next hs hc
  exact ⟨t', hc', (agree_iff t t').mp ht⟩

end Sys2Proof.Machine
end

section
/-!
PROOFS. Data memory, instruction memory and the faults of the program-order effects (R31, R34, R35,
R42, R44, R56, R101).
-/

namespace Sys2Proof.Machine

open Sys2Proof Sys2Proof.Config Sys2Proof.Laws

/-! ### Data accesses (R34, R42) -/

/-- A word whose signed reading is negative lies in the upper half of the unsigned range. -/
theorem le_toNat_of_toInt_neg {a : Word} (h : a.toInt < 0) : 2 ^ 31 ≤ a.toNat := by
  rw [BitVec.toInt_neg_iff] at h
  omega

/-- Settles O11: the range check decides both accesses, and a write is read back by `read_write_same`
and `read_write_other`. -/
theorem dataAccessAndRangeCheck : Obligations.DataAccessAndRangeCheck := by
  intro m a v
  refine ⟨fun hin => ?inside, fun hout => ?outside, fun hneg => ?negative⟩
  case inside =>
    have hr := inRange_of_le hin
    exact ⟨by simp [memRead, hr], m.write a.toNat v, by simp [memWrite, hr], read_write_same m _ v,
      fun b hb => read_write_other m v hb⟩
  case outside =>
    have hr := inRange_of_gt hout
    exact ⟨by simp [memRead, hr], by simp [memWrite, hr]⟩
  case negative =>
    have := le_toNat_of_toInt_neg hneg
    omega

/-- Settles O13: the store is committed by the first cycle, and the memory stage of the second reads
what the first committed (O31). -/
theorem loadAfterStoreGetsStoredWord : Obligations.LoadAfterStoreGetsStoredWord := by
  intro p s t u hhs hht hst htu hstore hload haddr
  obtain ⟨-, hsStage⟩ := memoryStageByOpcode p s hhs
  obtain ⟨-, htStage⟩ := memoryStageByOpcode p t hht
  obtain ⟨-, -, -, -, -, hsw, -⟩ := hsStage t hst
  obtain ⟨-, -, -, -, hlw, -⟩ := htStage u htu
  obtain ⟨-, -, hwritten, -⟩ := hsw hstore
  obtain ⟨-, hread⟩ := hlw hload
  calc u.memwb.writeData
      = t.dataMem.read t.exmem.aluResult.toNat := hread
    _ = t.dataMem.read s.exmem.aluResult.toNat := by rw [haddr]
    _ = s.exmem.readRegB := hwritten

/-! ### Fetching (R35, R82) -/

/-- In a normal cycle the front end fetches, or faults above the instruction memory. -/
theorem frontEnd_normal {p : Params} {s : State} (hr : redirect s = false)
    (hs : stall p s = false) :
    frontEnd p s = (iFetch s.instrMem s.pc).map fun w =>
      ⟨nextPc s.pc, ⟨w, nextPc s.pc⟩, decodeStage p s⟩ := by
  simp [frontEnd, hr, hs]

/-- The front end of a redirect or stall cycle does not look at the instruction memory. -/
theorem frontEnd_withInstrMem {p : Params} {s : State} (h : redirect s = true ∨ stall p s = true)
    (m : Memory) : frontEnd p { s with instrMem := m } = frontEnd p s := by
  have hr : redirect { s with instrMem := m } = redirect s := rfl
  have hs : stall p { s with instrMem := m } = stall p s := rfl
  unfold frontEnd
  rw [hr, hs]
  cases hred : redirect s with
  | true => rfl
  | false =>
    have hstall : stall p s = true := h.resolve_left (by simp [hred])
    simp [hstall]

/-- The word a normal cycle puts into IFID is the word at the pc (R82). -/
theorem cycle_fetches {p : Params} {s t : State} (hh : s.halted = false) (hr : redirect s = false)
    (hs : stall p s = false) (h : cycle p s = .next t) :
    t.ifid.instr = s.instrMem.read s.pc.toNat := by
  obtain ⟨regs, m, f, _, _, hf, rfl⟩ := cycle_performed hh h
  rcases frontEnd_ok hf with ⟨hr', _⟩ | ⟨_, hs', _⟩ | ⟨_, _, _, rfl⟩
  · simp [hr] at hr'
  · simp [hs] at hs'
  · rfl

/-- R88: the memory stage faults only by a load or store outside the memory. -/
theorem memoryStage_error {s : State} {f : Fault} (h : memoryStage s = .error f) :
    s.memoryFaults ∧ f = .dataAddressOutOfRange s.exmem.aluResult := by
  unfold memoryStage at h
  cases e : memoryOf s.exmem.instr s.dataMem s.exmem.aluResult s.exmem.readRegB with
  | ok r => rw [e] at h; cases h
  | error g =>
    rw [e] at h
    cases h
    obtain ⟨ho, ha, hf⟩ := memoryOf_error e
    exact ⟨⟨ho, ha⟩, hf⟩

theorem memoryStage_of_not_faults {s : State} (h : ¬ s.memoryFaults) :
    ∃ m, memoryStage s = .ok m := by
  cases hm : memoryStage s with
  | ok m => exact ⟨m, rfl⟩
  | error f => exact absurd (memoryStage_error hm).1 h

/-- A fetch fault comes from the front end of a normal cycle. -/
theorem normal_of_fetch_fault {p : Params} {s : State} {a : Word}
    (h : cycle p s = .fault (.fetchAddressOutOfRange a)) :
    redirect s = false ∧ stall p s = false := by
  obtain ⟨_, hw | ⟨_, _, hm⟩ | ⟨_, _, _, _, hf⟩⟩ := cycle_fault h
  · obtain ⟨_, _, _, he⟩ := writebackOf_error hw
    cases he
  · cases (memoryStage_error hm).2
  · obtain ⟨hr, hs, _⟩ := frontEnd_error hf
    exact ⟨hr, hs⟩

/-- A redirect or stall cycle is the same over every instruction memory. -/
theorem cycle_withInstrMem {p : Params} {s t : State} (hh : s.halted = false)
    (hn : redirect s = true ∨ stall p s = true) (h : cycle p s = .next t) (m : Memory) :
    cycle p { s with instrMem := m } = .next { t with instrMem := m } := by
  obtain ⟨regs, l, f, hw, hm, hf, rfl⟩ := cycle_performed hh h
  exact cycle_of_stages (s := { s with instrMem := m }) hh hw hm
    ((frontEnd_withInstrMem hn m).trans hf)

/-- Settles O12: `iFetch` stands in the normal case of the front end only, and nothing else of a cycle
reads the instruction memory. -/
theorem fetchOnlyInNormalCycles : Obligations.FetchOnlyInNormalCycles := by
  intro p s hh
  refine ⟨fun hr hs => ⟨fun _ t h => cycle_fetches hh hr hs h, fun hpc hwf hmf => ?_⟩,
    fun hn => ⟨fun a h => ?_, fun m t h => cycle_withInstrMem hh hn h m⟩⟩
  · obtain ⟨regs, hw⟩ := writebackStage_of_not_faults hwf
    obtain ⟨m, hm⟩ := memoryStage_of_not_faults hmf
    refine cycle_of_fetch_error hh hw hm ?_
    simp [frontEnd_normal hr hs, iFetch, inRange_of_gt hpc, Except.map]
  · obtain ⟨hr, hs⟩ := normal_of_fetch_fault h
    simp [hr, hs] at hn

/-! ### The faults of the program-order effects (R34, R56) -/

/-- The fault of an instruction's own effect, if it has one: a destination index above 7 (R56), a data
address above 65535 (R34). -/
def instrFault (i : Instr) (s : State) : Option Fault :=
  match i with
  | .add _ _ d | .nor _ _ d => if 7 < d.toNat then some (.destinationOutOfRange d) else none
  | .lw a _ off | .sw a _ off =>
    if 65535 < (readReg s.reg a + sext16 off).toNat then
      some (.dataAddressOutOfRange (readReg s.reg a + sext16 off))
    else none
  | .beq _ _ _ | .jalr _ _ _ | .halt _ _ _ | .noop _ _ _ => none

/-- The instruction memory and the program length of `t` are those of `s` (R20, R31). -/
def State.SameProgram (s t : State) : Prop := t.instrMem = s.instrMem ∧ t.progLen = s.progLen

/-- An outcome is what the fault `f?` says: that fault, or else a next state with the same program. -/
def AnswersAs (s : State) (f? : Option Fault) (o : Host.Outcome State Fault Refusal) : Prop :=
  (∃ f, f? = some f ∧ o = .fault f) ∨ (f? = none ∧ ∃ t, o = .next t ∧ s.SameProgram t)

theorem completeReg_answers (s : State) (d : Imm16) (v : Word) :
    AnswersAs s (if 7 < d.toNat then some (.destinationOutOfRange d) else none)
      (completeReg s d v) := by
  rcases completeReg_cases s d v with ⟨hd, e⟩ | ⟨hd, e⟩
  · exact .inr ⟨if_neg (by omega), _, e, rfl, rfl⟩
  · exact .inl ⟨_, if_pos hd, e⟩

theorem execLw_answers (a b : RegNum) (off : Imm16) (s : State) :
    AnswersAs s (instrFault (.lw a b off) s) (execLw a b off s) := by
  unfold execLw effectiveAddress
  rcases memRead_cases s.dataMem (readReg s.reg a + sext16 off) with ⟨ha, e⟩ | ⟨ha, e⟩ <;>
    simp only [e]
  · have hlegal := completeReg_answers s (regIndex b)
      (s.dataMem.read (readReg s.reg a + sext16 off).toNat)
    rw [if_neg (by have := regIndex_lt b; omega)] at hlegal
    rwa [instrFault, if_neg (Nat.not_lt.mpr (Nat.le_of_lt_succ ha))]
  · exact .inl ⟨_, if_pos ha, rfl⟩

theorem execSw_answers (a b : RegNum) (off : Imm16) (s : State) :
    AnswersAs s (instrFault (.sw a b off) s) (execSw a b off s) := by
  unfold execSw effectiveAddress
  rcases completeStore_cases s (readReg s.reg a + sext16 off) (readReg s.reg b) with
    ⟨ha, e⟩ | ⟨ha, e⟩
  · exact .inr ⟨if_neg (Nat.not_lt.mpr (Nat.le_of_lt_succ ha)), _, e, rfl, rfl⟩
  · exact .inl ⟨_, if_pos ha, e⟩

/-- Everything `exec` can do: the instruction's own fault, or a next state with the same program. -/
theorem exec_answers (i : Instr) (s : State) : AnswersAs s (instrFault i s) (exec i s) := by
  cases i with
  | add a b d => exact completeReg_answers s d _
  | nor a b d => exact completeReg_answers s d _
  | lw a b off => exact execLw_answers a b off s
  | sw a b off => exact execSw_answers a b off s
  | beq a b off =>
    refine .inr ⟨rfl, ?_⟩
    simp only [exec, execBeq]
    split
    · exact ⟨_, rfl, rfl, rfl⟩
    · exact ⟨_, rfl, rfl, rfl⟩
  | jalr a b imm => exact .inr ⟨rfl, _, rfl, rfl, rfl⟩
  | halt a b imm => exact .inr ⟨rfl, _, rfl, rfl, rfl⟩
  | noop a b imm => exact .inr ⟨rfl, _, rfl, rfl, rfl⟩

theorem exec_eq_fault_iff (i : Instr) (s : State) (f : Fault) :
    exec i s = .fault f ↔ instrFault i s = some f := by
  rcases exec_answers i s with ⟨g, hg, e⟩ | ⟨hg, t, e, _⟩ <;> simp [hg, e]

/-- The fault of `instrFault`, in the words of R56 and R34. -/
theorem instrFault_eq_some_iff (i : Instr) (s : State) (f : Fault) :
    instrFault i s = some f ↔
      (∃ (a b : RegNum) (d : Imm16), (i = .add a b d ∨ i = .nor a b d) ∧ 7 < d.toNat ∧
        f = .destinationOutOfRange d) ∨
      (∃ (a b : RegNum) (off : Imm16), (i = .lw a b off ∨ i = .sw a b off) ∧
        65535 < (readReg s.reg a + sext16 off).toNat ∧
        f = .dataAddressOutOfRange (readReg s.reg a + sext16 off)) := by
  cases i <;> simp [instrFault, eq_comm (a := f)]

/-- Settles O25: `exec` answers as `instrFault` says, so never with a refusal. -/
theorem execFaultsExactlyHere : Obligations.ExecFaultsExactlyHere := by
  intro i s
  refine ⟨fun f => (exec_eq_fault_iff i s f).trans (instrFault_eq_some_iff i s f), fun r h => ?_⟩
  rcases exec_answers i s with ⟨g, _, e⟩ | ⟨_, t, e, _⟩ <;> rw [e] at h <;> cases h

/-! ### The program is never changed (R31, R44) -/

theorem exec_sameProgram {i : Instr} {s t : State} (h : exec i s = .next t) : s.SameProgram t := by
  rcases exec_answers i s with ⟨g, _, e⟩ | ⟨_, u, e, hu⟩ <;> rw [e] at h <;> cases h
  exact hu

theorem cycle_sameProgram {p : Params} {s t : State} (h : cycle p s = .next t) :
    s.SameProgram t := by
  rcases cycle_next h with ⟨_, rfl⟩ | ⟨_, regs, m, f, _, _, _, rfl⟩
  · exact ⟨rfl, rfl⟩
  · exact ⟨commit_instrMem p s regs m f, commit_progLen p s regs m f⟩

/-- A run of `k + 1` cycles is one cycle and a run of `k` (R95). -/
theorem runCycles_succ_next {p : Params} {k : Nat} {s t : State}
    (h : runCycles p (k + 1) s = .next t) :
    ∃ u, cycle p s = .next u ∧ runCycles p k u = .next t := by
  unfold runCycles at h
  split at h
  · next u hu => exact ⟨u, hu, h⟩
  · cases h
  · cases h

theorem runCycles_sameProgram {p : Params} {k : Nat} {s t : State}
    (h : runCycles p k s = .next t) : s.SameProgram t := by
  induction k generalizing s with
  | zero => cases h; exact ⟨rfl, rfl⟩
  | succ k ih =>
    obtain ⟨u, hu, hrun⟩ := runCycles_succ_next h
    obtain ⟨hmem, hlen⟩ := cycle_sameProgram hu
    obtain ⟨hmem', hlen'⟩ := ih hrun
    exact ⟨hmem'.trans hmem, hlen'.trans hlen⟩

/-- Settles O14: the program is the same after any run, and a normal cycle fetches from it. -/
theorem storesNeverReachFetch : Obligations.StoresNeverReachFetch := by
  refine ⟨fun p k s t hrun => ?_, fun i s t h => exec_sameProgram h⟩
  obtain ⟨hmem, hlen⟩ := runCycles_sameProgram hrun
  refine ⟨hmem, hlen, fun u hh hr hs h => ?_⟩
  rw [← hmem]
  exact cycle_fetches hh hr hs h

end Sys2Proof.Machine
end

section
/-!
PROOFS. The codec (R46 to R52, R59): a word and an instruction correspond exactly when the opcode
number and the three operand fields agree; the round trip in both directions and the opcode map.
-/

namespace Sys2Proof.Machine

open Sys2Proof Sys2Proof.Config Sys2Proof.Laws

/-! ### Words, fields and instructions -/

/-- The three operand fields of an instruction, in word order (R59). -/
def operandsOf : Instr → RegNum × RegNum × Imm16
  | .add a b x  => (a, b, x)
  | .nor a b x  => (a, b, x)
  | .lw a b x   => (a, b, x)
  | .sw a b x   => (a, b, x)
  | .beq a b x  => (a, b, x)
  | .jalr a b x => (a, b, x)
  | .halt a b x => (a, b, x)
  | .noop a b x => (a, b, x)

/-- The three operand fields of a word (R48, R49). -/
def wordOperands (w : Word) : RegNum × RegNum × Imm16 := (fieldA w, fieldB w, fieldImm w)

/-- R59: every instruction is encoded alike, from its opcode number and its operand fields. -/
theorem encode_eq_packFields (i : Instr) :
    encode i = packFields (opcodeNumber i) (operandsOf i).1 (operandsOf i).2.1 (operandsOf i).2.2 := by
  cases i <;> rfl

theorem opcode_encode (i : Instr) : opcode (encode i) = opcodeNumber i := by
  rw [encode_eq_packFields, opcode_pack]

theorem wordOperands_encode (i : Instr) : wordOperands (encode i) = operandsOf i := by
  rw [encode_eq_packFields, wordOperands, fieldA_pack, fieldB_pack, fieldImm_pack]

/-- R46: the four fields cover the word. -/
theorem packFields_fields (w : Word) :
    packFields (opcode w) (fieldA w) (fieldB w) (fieldImm w) = w := by
  apply BitVec.eq_of_toNat_eq
  rw [packFields_toNat, opcode_toNat, fieldA_toNat, fieldB_toNat, fieldImm_toNat]
  omega

/-- R52: the decoder answers an instruction exactly when the opcode number and the operand fields of
the word are the instruction's. -/
theorem decode_eq_ok_iff (w : Word) (i : Instr) :
    decode w = .ok i ↔ opcode w = opcodeNumber i ∧ wordOperands w = operandsOf i := by
  constructor
  · intro h
    rcases decode_cases w with ⟨ho, e⟩ | ⟨ho, e⟩ | ⟨ho, e⟩ | ⟨ho, e⟩ | ⟨ho, e⟩ | ⟨ho, e⟩ | ⟨ho, e⟩ | ⟨ho, e⟩ | ⟨ho, e⟩ <;>
      cases e.symm.trans h <;> exact ⟨BitVec.eq_of_toNat_eq ho, rfl⟩
  · rintro ⟨ho, hf⟩
    cases i <;> cases hf <;> simp [decode, ho, opcodeNumber]

/-- Settles O1: the encoded word has the opcode number and the operand fields of its instruction. -/
theorem decodeOfEncodeIsInstruction : Obligations.DecodeOfEncodeIsInstruction :=
  fun i => (decode_eq_ok_iff _ i).mpr ⟨opcode_encode i, wordOperands_encode i⟩

/-- Settles O2: the instruction is encoded from the word's own four fields. -/
theorem encodeOfDecodeIsWord : Obligations.EncodeOfDecodeIsWord := by
  intro w i h
  obtain ⟨ho, hf⟩ := (decode_eq_ok_iff w i).mp h
  rw [encode_eq_packFields, ← ho, ← hf]
  exact packFields_fields w

/-! ### The fields by position (R47 to R49) -/

/-- Settles O4: the fields' positions as numbers; a three-bit field is at most 7. -/
theorem registerAndImmediateFields : Obligations.RegisterAndImmediateFields :=
  fun w => ⟨fieldA_toNat w, Nat.le_of_lt_succ (fieldA w).isLt, fieldB_toNat w,
    Nat.le_of_lt_succ (fieldB w).isLt, fieldImm_toNat w⟩

/-- R47, R55: above 7 the decoder rejects, up to 7 it answers an instruction. -/
theorem decode_by_opcode (w : Word) :
    ((opcode w).toNat ≤ 7 ∧ ∃ i, decode w = .ok i) ∨
    (7 < (opcode w).toNat ∧ decode w = .error (.unrecognisedOpcode (opcode w))) := by
  rcases decode_cases w with ⟨h, e⟩ | ⟨h, e⟩ | ⟨h, e⟩ | ⟨h, e⟩ | ⟨h, e⟩ | ⟨h, e⟩ | ⟨h, e⟩ | ⟨h, e⟩ | h
  case inr.inr.inr.inr.inr.inr.inr.inr => exact .inr h
  all_goals exact .inl ⟨by omega, _, e⟩

theorem recognised_iff (w : Word) : (∃ i, decode w = .ok i) ↔ (opcode w).toNat ≤ 7 := by
  rcases decode_by_opcode w with ⟨h, i, e⟩ | ⟨h, e⟩
  · exact ⟨fun _ => h, fun _ => ⟨i, e⟩⟩
  · simpa [e] using h

/-- R47: an arithmetic shift keeps a small opcode, and of a word with bit 31 set it is never small. -/
theorem sshiftRight_le_seven_iff (w : Word) :
    (w.sshiftRight 22).toNat ≤ 7 ↔ (opcode w).toNat ≤ 7 := by
  rw [opcode_toNat]
  cases hw : w.msb with
  | false => rw [BitVec.sshiftRight_eq_of_msb_false hw, BitVec.toNat_ushiftRight,
      Nat.shiftRight_eq_div_pow]
  | true =>
    have hge : 2 ^ 31 ≤ w.toNat := by simpa using BitVec.toNat_ge_of_msb_true hw
    rw [BitVec.sshiftRight_eq_of_msb_true hw, BitVec.toNat_not, BitVec.toNat_ushiftRight,
      BitVec.toNat_not, Nat.shiftRight_eq_div_pow]
    omega

/-- Settles O3: the decoder by its opcode field, and the field as a quotient of the word. -/
theorem opcodeFieldDecidesRecognition : Obligations.OpcodeFieldDecidesRecognition := by
  intro w
  refine ⟨opcode_toNat w, recognised_iff w, ?bits, ?low, fun h => ?rejected,
    sshiftRight_le_seven_iff w⟩
  case bits => rw [opcode_toNat]; omega
  case low => rw [opcode_toNat]; omega
  case rejected =>
    rcases decode_by_opcode w with ⟨hle, _⟩ | ⟨_, e⟩
    · omega
    · exact e

/-! ### The opcode map and the encoded word (R52, R59) -/

/-- The mask column of R52 keeps the opcode field. -/
theorem opcode_and_mask (w : Word) : opcode (w &&& 0xFFC00000#32) = opcode w := by
  have hmask : (0xFFC00000#32).extractLsb' 22 10 = BitVec.allOnes 10 := by decide
  rw [opcode, BitVec.extractLsb'_and, hmask, BitVec.and_allOnes, opcode]

/-- R52: a word that matches the opcode number of an instruction, and has its fields, decodes to it. -/
theorem decode_of_match {w v : Word} {i : Instr} (hv : opcode v = opcodeNumber i)
    (hf : wordOperands w = operandsOf i) (h : w &&& 0xFFC00000#32 = v) : decode w = .ok i := by
  rw [decode_eq_ok_iff, ← opcode_and_mask, h]
  exact ⟨hv, hf⟩

/-- Settles O5: each match value has the opcode number of its row. -/
theorem opcodeMapByMatchAndMask : Obligations.OpcodeMapByMatchAndMask :=
  fun _ => ⟨decode_of_match rfl rfl, decode_of_match rfl rfl, decode_of_match rfl rfl,
    decode_of_match rfl rfl, decode_of_match rfl rfl, decode_of_match rfl rfl,
    decode_of_match rfl rfl, decode_of_match rfl rfl⟩

/-- Widening a word made of two parts: the upper part shifted over the lower one. -/
theorem setWidth_append_eq_or {m n : Nat} (x : BitVec m) (y : BitVec n) (k : Nat) :
    (x ++ y).setWidth k = (x.setWidth k <<< n) ||| y.setWidth k := by
  ext i hi
  by_cases h : i < n
  · simp [BitVec.getLsbD_append, h]
  · simp [BitVec.getLsbD_append, h, BitVec.getLsbD_of_ge y i (Nat.le_of_not_lt h)]

/-- R59: the packed word as shifts and ors of its fields. -/
theorem packFields_eq_or (op : BitVec 10) (a b : RegNum) (x : Imm16) :
    packFields op a b x = (op.setWidth 32 <<< 22) |||
      ((a.setWidth 32 <<< 19) ||| (b.setWidth 32 <<< 16) ||| x.setWidth 32) :=
  calc packFields op a b x
      = (((op ++ a) ++ b) ++ x : BitVec (10 + 3 + 3 + 16)).setWidth 32 :=
        (BitVec.setWidth_eq _).symm
    _ = ((op.setWidth 32 <<< 3 ||| a.setWidth 32) <<< 3 ||| b.setWidth 32) <<< 16
          ||| x.setWidth 32 := by
        rw [setWidth_append_eq_or, setWidth_append_eq_or, setWidth_append_eq_or]
    _ = _ := by
        simp only [BitVec.shiftLeft_or_distrib, ← BitVec.shiftLeft_add, BitVec.or_assoc,
          Nat.reduceAdd]

/-- Settles O6: the formula for one packed word, at each opcode number. -/
theorem encodedWordIsShiftedFields : Obligations.EncodedWordIsShiftedFields :=
  fun a b x => ⟨packFields_eq_or 0 a b x, packFields_eq_or 1 a b x, packFields_eq_or 2 a b x,
    packFields_eq_or 3 a b x, packFields_eq_or 4 a b x, packFields_eq_or 5 a b x,
    packFields_eq_or 6 a b x, packFields_eq_or 7 a b x⟩

/-! ### The offset (R50) -/

theorem sext16_of_nonneg {v : Imm16} (h : v.toNat / 2 ^ 15 = 0) : sext16 v = v.setWidth 32 := by
  have hmsb : v.msb = false := by rw [BitVec.msb_eq_decide, decide_eq_false_iff_not]; omega
  exact BitVec.signExtend_eq_setWidth_of_msb_false hmsb

theorem sext16_of_neg {v : Imm16} (h : v.toNat / 2 ^ 15 = 1) :
    sext16 v = v.setWidth 32 + 0xFFFF0000#32 := by
  have hlt := v.isLt
  have hmsb : v.msb = true := by rw [BitVec.msb_eq_decide, decide_eq_true_iff]; omega
  apply BitVec.eq_of_toNat_eq
  rw [sext16, BitVec.toNat_signExtend, if_pos hmsb, BitVec.toNat_add, BitVec.toNat_setWidth,
    BitVec.toNat_ofNat]
  omega

/-- Widening keeps the signed value, which is the number less 2^16 when bit 15 is set (R50). -/
theorem toInt_sext16_of_neg {v : Imm16} (h : v.toNat / 2 ^ 15 = 1) :
    (sext16 v).toInt = (v.toNat : Int) - 65536 := by
  rw [sext16, BitVec.toInt_signExtend_of_le (by decide), BitVec.toInt_eq_toNat_cond,
    if_neg (by omega)]
  rfl

/-- Settles O8: the widening by the value of bit 15; in a normal cycle IDEX takes what decode leaves. -/
theorem offsetIsSignExtended : Obligations.OffsetIsSignExtended := by
  refine ⟨fun v => ⟨sext16_of_nonneg, fun h => ⟨sext16_of_neg h, toInt_sext16_of_neg h⟩⟩,
    by decide, by decide, by decide, by decide, fun w a b off h => ?decoded,
    fun p s t hh hr hs h => ?carried⟩
  case decoded =>
    have hf : wordOperands w = (a, b, off) := by
      rcases h with h | h | h <;> exact ((decode_eq_ok_iff w _).mp h).2
    cases hf
    rfl
  case carried =>
    obtain ⟨regs, m, f, _, _, hf, rfl⟩ := cycle_performed hh h
    rw [commit_idex, frontEnd_idex_normal hr hs hf, decodeStage_offset]

end Sys2Proof.Machine
end

section
/-!
PROOFS. The destination of a word (R61) and what writeback does with it (R56, R90).
-/

namespace Sys2Proof.Machine

open Sys2Proof Sys2Proof.Config Sys2Proof.Laws

/-! ### The destination (R61) -/

/-- R61: the destination of `add` and `nor` is the whole low field. -/
theorem destOf_of_le_one {w : Word} (h : (opcode w).toNat ≤ 1) : destOf w = some (fieldImm w) := by
  rcases destOf_cases w with ⟨_, e⟩ | ⟨ho, _⟩ | ⟨ho, _⟩
  · exact e
  · omega
  · omega

/-- R61: the destination of `lw` is its B field. -/
theorem destOf_of_eq_two {w : Word} (h : (opcode w).toNat = 2) :
    destOf w = some (regIndex (fieldB w)) := by
  rcases destOf_cases w with ⟨ho, _⟩ | ⟨_, e⟩ | ⟨ho, _⟩
  · omega
  · exact e
  · omega

/-- A destination index names register `r` exactly when it is the number of `r`, unmasked (R61). -/
theorem some_eq_some_regIndex_iff (d : Imm16) (r : RegNum) :
    some d = some (regIndex r) ↔ d.toNat = r.toNat := by
  rw [Option.some_inj, ← BitVec.toNat_inj, regIndex_toNat]

/-- Settles O36: the destination by opcode; the whole index is compared with the register's number. -/
theorem destinationOfWord : Obligations.DestinationOfWord := by
  refine fun w => ⟨fun h => ⟨destOf_of_le_one h, fun r => ?_⟩,
    fun h => ⟨_, destOf_of_eq_two h, regIndex_toNat _⟩, (destOf_eq_none_iff w).mpr⟩
  rw [destOf_of_le_one h, some_eq_some_regIndex_iff]

theorem destOf_encode (i : Instr) : destOf (encode i) = instrDest i := by
  simp only [destOf, decodeOfEncodeIsInstruction i]

/-! ### Writeback (R56, R90) -/

/-- R90: after writeback the destination register holds the value, and every other its old one. -/
theorem readReg_of_writebackOf {w : Word} {regs regs' : Vector Word 8} {v : Word}
    (h : writebackOf w regs v = .ok regs') (r : RegNum) :
    readReg regs' r = if destOf w = some (regIndex r) then v else readReg regs r := by
  rcases writebackOf_ok h with ⟨hd, rfl⟩ | ⟨d, hlt, hd, rfl⟩
  · simp [hd]
  · simp only [hd, readReg_set, some_eq_some_regIndex_iff]

/-- R56, R90: a destination index above 7 faults in writeback, with the whole index. -/
theorem cycle_of_reserved_dest {s : State} {d : Imm16} (hh : s.halted = false)
    (hdest : destOf s.memwb.instr = some d) (hd : 7 < d.toNat) (p : Params) :
    cycle p s = .fault (.destinationOutOfRange d) := by
  apply cycle_of_writeback_error hh
  rcases writeReg_cases s.reg d s.memwb.writeData with ⟨hlt, _⟩ | ⟨_, e⟩
  · omega
  · simp only [writebackStage, writebackOf, hdest, e]

/-- Settles O32: each clause is `readReg_of_writebackOf` at the destination of its opcode. -/
theorem writebackCommitsOneRegister : Obligations.WritebackCommitsOneRegister := by
  refine fun p s hh => ⟨fun ho hd => cycle_of_reserved_dest hh (destOf_of_le_one ho) hd p,
    fun t h => ?_⟩
  obtain ⟨regs, m, f, hw, _, _, rfl⟩ := cycle_performed hh h
  have hread := readReg_of_writebackOf hw
  refine ⟨fun ho => ⟨?inRange, fun r => ?wide⟩, fun ho r => ?load, fun ho => ?none, rfl⟩
  case inRange =>
    by_contra hgt
    simp [cycle_of_reserved_dest hh (destOf_of_le_one ho) (by omega) p] at h
  case wide =>
    rw [commit_reg, hread r, destOf_of_le_one ho]
    simp only [some_eq_some_regIndex_iff, eq_comm]
  case load =>
    rw [commit_reg, hread r, destOf_of_eq_two ho]
    simp only [Option.some_inj, regIndex_inj, eq_comm]
  case none =>
    rw [writebackStage, writebackOf_of_none ((destOf_eq_none_iff _).mpr ho)] at hw
    exact (Except.ok.inj hw).symm

/-- Settles O35: the encoded word keeps the whole index as its destination, which no register has. -/
theorem reservedDestinationFaultsInWriteback : Obligations.ReservedDestinationFaultsInWriteback := by
  intro a b d hd i hi
  have hdest : destOf (encode i) = some d := by
    rcases hi with rfl | rfl <;> exact destOf_encode _
  have hop : (opcode (encode i)).toNat ≤ 1 := by
    rw [opcode_encode]
    rcases hi with rfl | rfl <;> simp [opcodeNumber]
  refine ⟨decodeOfEncodeIsInstruction i, fun p w r tag => ?scan, fun m x v => ?memory,
    fun p s hs => ?fault⟩
  case scan =>
    have hne : destOf (encode i) ≠ some (regIndex r) := by
      have := r.isLt
      rw [hdest, Ne, some_eq_some_regIndex_iff]
      omega
    rw [scanEntry_eq, if_neg hne]
  case memory => rw [memoryOf_eq, if_pos hop]
  case fault =>
    rw [← hs] at hdest hop
    exact cycle_of_reserved_dest (halted_of_ne (by omega)) hdest hd p

end Sys2Proof.Machine
end

section
/-!
PROOFS. The arithmetic and logic instructions in program order (R62 to R64): the value each computes,
and one register written with everything else kept.
-/

namespace Sys2Proof.Machine

open Sys2Proof Sys2Proof.Config Sys2Proof.Laws

/-! ### The values (R62 to R64) -/

/-- R62, R64: the sum wraps modulo 2^32. -/
theorem aluAdd_toNat (x y : Word) : (aluAdd x y).toNat = (x.toNat + y.toNat) % 2 ^ 32 :=
  BitVec.toNat_add x y

/-- R63: a bit of the NOR is 1 exactly when both sources have 0 there. -/
theorem aluNor_getLsbD (x y : Word) {k : Nat} (hk : k < 32) :
    (aluNor x y).getLsbD k = true ↔ x.getLsbD k = false ∧ y.getLsbD k = false := by
  simp [aluNor, hk]

/-! ### The completion and its frame (R56, R62, R63) -/

/-- For a legal destination the completion of a register-writing instruction answers: the
value in that register, the pc one further, and nothing else changed. -/
theorem completeReg_frame {d : Imm16} (hd : d.toNat ≤ 7) (s : State) (v : Word) :
    ∃ t, completeReg s d v = .next t ∧
      (∀ r : RegNum, r.toNat = d.toNat → readReg t.reg r = v) ∧
      (∀ r : RegNum, r.toNat ≠ d.toNat → readReg t.reg r = readReg s.reg r) ∧
      t.pc = s.pc + 1 ∧ (∀ x, t.dataMem.read x = s.dataMem.read x) ∧
      t = { s with reg := t.reg, pc := t.pc } := by
  rcases completeReg_cases s d v with ⟨_, hnext⟩ | ⟨hgt, _⟩
  · refine ⟨_, hnext, fun r hr => ?written, fun r hr => ?kept, rfl, fun _ => rfl, rfl⟩
    case written => rw [readReg_set, if_pos hr.symm]
    case kept => rw [readReg_set, if_neg hr.symm]
  · omega

/-- Settles O18: the sum is the value that the completion writes. -/
theorem addWritesSum : Obligations.AddWritesSum := by
  intro a b d s hd
  obtain ⟨t, hnext, hwritten, hframe⟩ :=
    completeReg_frame hd s (aluAdd (readReg s.reg a) (readReg s.reg b))
  refine ⟨t, hnext, fun r hr => ?_, hframe⟩
  rw [hwritten r hr, aluAdd_toNat]

/-- Settles O19: the NOR is the value that the completion writes. -/
theorem norWritesNor : Obligations.NorWritesNor := by
  intro a b d s hd
  obtain ⟨t, hnext, hwritten, hframe⟩ :=
    completeReg_frame hd s (aluNor (readReg s.reg a) (readReg s.reg b))
  refine ⟨t, hnext, fun r hr k hk => ?_, hframe⟩
  rw [hwritten r hr, aluNor_getLsbD _ _ hk]

end Sys2Proof.Machine
end

section
/-!
PROOFS. The load and store instructions in program order (R66 to R68): one register or one data word
written, with everything else kept.
-/

namespace Sys2Proof.Machine

open Sys2Proof Sys2Proof.Config Sys2Proof.Laws

/-! ### Access inside the memory (R34) -/

/-- R34: a read inside the memory answers the word there. -/
theorem memRead_of_le {a : Word} (ha : a.toNat ≤ 65535) (m : Memory) :
    memRead m a = .ok (m.read a.toNat) :=
  if_pos (inRange_of_le ha)

/-- R67: inside the memory, `lw` completes as the register write of the data word to register B. -/
theorem execLw_of_le {a : RegNum} {off : Imm16} {s : State}
    (ha : (readReg s.reg a + sext16 off).toNat ≤ 65535) (b : RegNum) :
    execLw a b off s =
      completeReg s (regIndex b) (s.dataMem.read (readReg s.reg a + sext16 off).toNat) := by
  simp only [execLw, effectiveAddress, memRead_of_le ha]

/-! ### The completion of a store and its frame (R68) -/

/-- Inside the memory the completion of a store answers: the value in that data word, the
pc one further, and nothing else changed. -/
theorem completeStore_frame {a : Word} (ha : a.toNat ≤ 65535) (s : State) (v : Word) :
    ∃ t, completeStore s a v = .next t ∧
      t.dataMem.read a.toNat = v ∧
      (∀ x, x ≠ a.toNat → t.dataMem.read x = s.dataMem.read x) ∧
      t.pc = s.pc + 1 ∧ t = { s with dataMem := t.dataMem, pc := t.pc } := by
  rcases completeStore_cases s a v with ⟨_, hnext⟩ | ⟨hgt, _⟩
  · exact ⟨_, hnext, read_write_same _ _ v, fun x hx => read_write_other _ v hx, rfl, rfl⟩
  · exact absurd hgt (Nat.not_le.mpr (Nat.lt_succ_of_le ha))

/-! ### The two instructions (R67, R68) -/

/-- Settles O20: the completion writes the loaded word through the index of register B, which is
always legal and is no other register's. -/
theorem lwLoadsWord : Obligations.LwLoadsWord := by
  intro a b off s ha
  have hlegal : (regIndex b).toNat ≤ 7 := Nat.le_of_lt_succ (regIndex_lt b)
  obtain ⟨t, hnext, hwritten, hkept, hrest⟩ :=
    completeReg_frame hlegal s (s.dataMem.read (readReg s.reg a + sext16 off).toNat)
  refine ⟨t, (execLw_of_le ha b).trans hnext, hwritten b (regIndex_toNat b).symm,
    fun r hr => hkept r fun hsame => hr ?_, hrest⟩
  exact BitVec.eq_of_toNat_eq (hsame.trans (regIndex_toNat b))

/-- Settles O21: `sw` is the completion of a store of register B at the effective address. -/
theorem swStoresWord : Obligations.SwStoresWord := by
  intro a b off s ha
  obtain ⟨t, hnext, hwritten, hkept, hpc, hrest⟩ := completeStore_frame ha s (readReg s.reg b)
  exact ⟨t, hnext, hwritten, hkept, rfl, hpc, hrest⟩

end Sys2Proof.Machine
end

section
/-!
PROOFS. The control transfer instructions and `noop` in program order (R70, R71, R74): only the pc
changes.
-/

namespace Sys2Proof.Machine

open Sys2Proof Sys2Proof.Config Sys2Proof.Laws

/-! ### The instructions that only advance (R71, R74) -/

/-- R15: the completion of an instruction that only advances, with its pc written out. -/
theorem advance_eq (s : State) : advance s = .next { s with pc := s.pc + 1 } := rfl

theorem exec_jalr_eq_advance (a b : RegNum) (imm : Imm16) (s : State) :
    exec (.jalr a b imm) s = advance s := rfl

theorem exec_noop_eq_advance (a b : RegNum) (imm : Imm16) (s : State) :
    exec (.noop a b imm) s = advance s := rfl

/-- Settles O23: both are the completion that only advances, whatever their fields hold. -/
theorem jalrAndNoopOnlyAdvance : Obligations.JalrAndNoopOnlyAdvance := by
  intro a b imm s
  exact ⟨(exec_jalr_eq_advance a b imm s).trans (advance_eq s),
    (exec_noop_eq_advance a b imm s).trans (advance_eq s)⟩

/-! ### The branch (R70) -/

/-- R70: the branch condition is equality of the two words. -/
theorem branchEqual_iff {x y : Word} : branchEqual x y = true ↔ x = y := beq_iff_eq

/-- What `beq` can do: go to the target when the registers are equal, and else only advance. -/
theorem exec_beq_cases (a b : RegNum) (off : Imm16) (s : State) :
    (readReg s.reg a = readReg s.reg b ∧
      exec (.beq a b off) s = .next { s with pc := s.pc + 1 + sext16 off }) ∨
    (readReg s.reg a ≠ readReg s.reg b ∧
      exec (.beq a b off) s = .next { s with pc := s.pc + 1 }) := by
  by_cases heq : readReg s.reg a = readReg s.reg b
  · exact .inl ⟨heq, if_pos (branchEqual_iff.mpr heq)⟩
  · exact .inr ⟨heq, if_neg (mt branchEqual_iff.mp heq)⟩

/-- Settles O22: each case of the branch names its next state, which differs in the pc only. -/
theorem beqSetsPc : Obligations.BeqSetsPc := by
  intro a b off s
  rcases exec_beq_cases a b off s with ⟨heq, hnext⟩ | ⟨hne, hnext⟩
  case inl => exact ⟨_, hnext, fun _ => rfl, fun hne => absurd heq hne, fun _ => rfl, rfl⟩
  case inr => exact ⟨_, hnext, fun heq => absurd heq hne, fun _ => rfl, fun _ => rfl, rfl⟩

end Sys2Proof.Machine
end

section
/-!
PROOFS. `halt` in program order and through the pipeline (R72, R81, R141): a halted machine stays, and
the word fetched by one cycle is moved by the next three through IDEX and EXMEM to MEMWB.
-/

namespace Sys2Proof.Machine

open Sys2Proof Sys2Proof.Config Sys2Proof.Laws

/-! ### The halted condition (R72, R81) -/

/-- R81: any number of cycles leaves a halted machine as it is. -/
theorem runCycles_of_halted {s : State} (hh : s.halted = true) (p : Params) (k : Nat) :
    runCycles p k s = .next s := by
  induction k with
  | zero => rfl
  | succ k ih => simp only [runCycles, cycle_of_halted hh, ih]

/-- R72: `halt` completes with its word in MEMWB and the rest of the state as it was. -/
theorem exec_halt_eq (a b : RegNum) (imm : Imm16) (s : State) :
    exec (.halt a b imm) s =
      .next { s with memwb := { MemWbLatch.empty with instr := encode (.halt a b imm) } } := rfl

/-- R72, R81: a machine with an encoded `halt` in MEMWB is halted, whatever its ignored bits. -/
theorem halted_of_encode_halt {s : State} {a b : RegNum} {imm : Imm16}
    (h : s.memwb.instr = encode (.halt a b imm)) : s.halted = true := by
  rw [halted_iff, h, opcode_encode]
  rfl

/-- Settles O24: the next state of `exec` holds the halt word in MEMWB, so it is halted and stays. -/
theorem haltEntersHalted : Obligations.HaltEntersHalted := by
  intro a b imm s
  refine ⟨_, exec_halt_eq a b imm s, ?halted, rfl, rfl, runCycles_of_halted ?halted⟩
  exact halted_of_encode_halt rfl

/-! ### A word on its way to MEMWB (R82, R83, R86, R88, R92) -/

/-- R92: a performed cycle counts one. -/
theorem cycle_counts {p : Params} {s t : State} (hh : s.halted = false) (h : cycle p s = .next t) :
    t.cycles = s.cycles + 1 := by
  obtain ⟨regs, m, f, _, _, _, rfl⟩ := cycle_performed hh h
  exact commit_cycles p s regs m f

/-- R83: a normal cycle moves the word in IFID to IDEX. -/
theorem cycle_decodes {p : Params} {s t : State} (hh : s.halted = false) (hr : redirect s = false)
    (hs : stall p s = false) (h : cycle p s = .next t) : t.idex.instr = s.ifid.instr := by
  obtain ⟨regs, m, f, _, _, hf, rfl⟩ := cycle_performed hh h
  rw [commit_idex, frontEnd_idex_normal hr hs hf, decodeStage_instr]

/-- R86, R89: a cycle that does not squash execute moves the word in IDEX to EXMEM. -/
theorem cycle_executes {p : Params} {s t : State} (hh : s.halted = false)
    (hsq : (redirect s && p.squashExecute) = false) (h : cycle p s = .next t) :
    t.exmem.instr = s.idex.instr := by
  obtain ⟨regs, m, f, _, _, _, rfl⟩ := cycle_performed hh h
  rw [commit_exmem, nextExMem_of_not_squashed hsq, executeStage_instr]

/-- R88: every performed cycle moves the word in EXMEM to MEMWB. -/
theorem cycle_accesses {p : Params} {s t : State} (hh : s.halted = false)
    (h : cycle p s = .next t) : t.memwb.instr = s.exmem.instr := by
  obtain ⟨_, hstage⟩ := memoryStageByOpcode p s hh
  obtain ⟨hinstr, _⟩ := hstage t h
  exact hinstr

/-- R126, R131: a word that needs no operand never stalls in IFID. -/
theorem stall_of_opcode_gt_four {s : State} (h : 4 < (opcode s.ifid.instr).toNat) (p : Params) :
    stall p s = false :=
  stall_of_loadUse_false (loadUse_of_not_needed (needsA_of_gt h) (needsB_of_gt h))

/-- Settles O47: the halt word is fetched by the first cycle and moved one latch on by each of the
other three, no cycle being able to stall it, and each performed cycle counts one. -/
theorem haltStopsFourCyclesAfterFetch : Obligations.HaltStopsFourCyclesAfterFetch := by
  intro p s0 s1 s2 s3 s4 hh0 hh1 hh2 hh3 h0 h1 h2 h3 hr0 hs0 hr1 hsq2 hop
  have hifid : s1.ifid.instr = s0.instrMem.read s0.pc.toNat := cycle_fetches hh0 hr0 hs0 h0
  have hs1 : stall p s1 = false := stall_of_opcode_gt_four (by rw [hifid]; omega) p
  have hmemwb : s4.memwb.instr = s0.instrMem.read s0.pc.toNat :=
    calc s4.memwb.instr
        = s3.exmem.instr := cycle_accesses hh3 h3
      _ = s2.idex.instr := cycle_executes hh2 hsq2 h2
      _ = s1.ifid.instr := cycle_decodes hh1 hr1 hs1 h1
      _ = s0.instrMem.read s0.pc.toNat := hifid
  have hhalted : s4.halted = true := by rw [halted_iff, hmemwb, hop]
  refine ⟨hhalted, ?counter, cycle_of_halted hhalted p⟩
  rw [cycle_counts hh3 h3, cycle_counts hh2 h2, cycle_counts hh1 h1, cycle_counts hh0 h0]

end Sys2Proof.Machine
end

section
/-!
PROOFS. The program-order view across a cycle (R96, R130): what the older instructions leave in the
registers, and that the forwarding multiplexers select just that.
-/

namespace Sys2Proof.Machine

open Sys2Proof Sys2Proof.Config Sys2Proof.Laws

/-! ### Completing an instruction in the view (R88, R90) -/

theorem regsAfter_of_ok {w : Word} {regs regs' : Vector Word 8} {v : Word}
    (h : writebackOf w regs v = .ok regs') : regsAfter w regs v = regs' := by
  simp [regsAfter, h]

theorem regsAfter_of_none {w : Word} (h : destOf w = none) (regs : Vector Word 8) (v : Word) :
    regsAfter w regs v = regs :=
  regsAfter_of_ok (writebackOf_of_none h regs v)

/-- A register after a commit, which changes no register where it would fault (R56, R90). -/
theorem readReg_regsAfter (w : Word) (regs : Vector Word 8) (v : Word) (r : RegNum) :
    readReg (regsAfter w regs v) r =
      if destOf w = some (regIndex r) then v else readReg regs r := by
  cases hw : writebackOf w regs v with
  | ok regs' => rw [regsAfter_of_ok hw, readReg_of_writebackOf hw r]
  | error f =>
    obtain ⟨d, hd, hgt, _⟩ := writebackOf_error hw
    have hne : destOf w ≠ some (regIndex r) := by
      have := r.isLt
      rw [hd, Ne, some_eq_some_regIndex_iff]
      omega
    simp [regsAfter, hw, hne]

theorem memoryAfter_of_ok {s : State} {r : Word × Memory}
    (h : memoryOf s.exmem.instr s.dataMem s.exmem.aluResult s.exmem.readRegB = .ok r) :
    memoryAfter s = r := by
  simp [memoryAfter, h]

/-- The value an `add` or `nor` in EXMEM will commit is its ALU result (R88). -/
theorem memoryAfter_of_le_one {s : State} (h : (opcode s.exmem.instr).toNat ≤ 1) :
    memoryAfter s = (s.exmem.aluResult, s.dataMem) :=
  memoryAfter_of_ok (by rw [memoryOf_eq, if_pos h])

/-! ### The view of the next state (R92, R96) -/

/-- After a performed cycle the instruction that stood in EXMEM has completed in the data memory and is
the last but one to complete in the registers. -/
theorem cycle_older {p : Params} {s t : State} (hh : s.halted = false) (h : cycle p s = .next t) :
    t.dataMem = s.older.dataMem ∧
      regsAfter t.memwb.instr t.reg t.memwb.writeData = s.older.reg ∧
      t.older.reg = regsAfter t.exmem.instr s.older.reg (memoryAfter t).1 := by
  obtain ⟨regs, m, f, hw, hm, _, rfl⟩ := cycle_performed hh h
  obtain ⟨hmem, hinstr, _, _⟩ := memoryStage_ok hm
  have hregs : regsAfter s.memwb.instr s.reg s.memwb.writeData = regs := regsAfter_of_ok hw
  have hview : regsAfter m.1.instr regs m.1.writeData = s.older.reg := by
    rw [older_reg, memoryAfter_of_ok hmem, hregs, hinstr]
  refine ⟨?_, hview, ?_⟩
  · rw [older_dataMem, memoryAfter_of_ok hmem, commit_dataMem]
  · rw [older_reg, commit_memwb, commit_reg, hview]

/-- What each register holds once the instructions in the window have completed: the value of its
nearest producer (R125, R96 b). -/
theorem readReg_older_next {p : Params} {s t : State} (hh : s.halted = false)
    (hr : redirect s = false) (h : cycle p s = .next t) (r : RegNum) :
    readReg t.older.reg r =
      if destOf s.idex.instr = some (regIndex r) then (memoryAfter t).1
      else if destOf s.exmem.instr = some (regIndex r) then t.memwb.writeData
      else if destOf s.memwb.instr = some (regIndex r) then t.wbend.writeData
      else readReg s.reg r := by
  obtain ⟨regs, m, f, hw, hm, _, rfl⟩ := cycle_performed hh h
  obtain ⟨_, hinstr, _, _⟩ := memoryStage_ok hm
  have hx : (commit p s regs m f).exmem.instr = s.idex.instr := by
    rw [commit_exmem, nextExMem_of_not_squashed (by simp [hr]), executeStage_instr]
  rw [older_reg, readReg_regsAfter, readReg_regsAfter, hx, commit_memwb, commit_reg, hinstr,
    readReg_of_writebackOf hw]
  rfl

/-! ### The scan finds the nearest producer (R128) -/

/-- R61: a word with a destination that is no load is an `add` or a `nor`. -/
theorem opcode_le_one_of_destOf {w : Word} {d : Imm16} (h : destOf w = some d)
    (hne : (opcode w).toNat ≠ 2) : (opcode w).toNat ≤ 1 := by
  have hle : ¬ 2 < (opcode w).toNat := by rw [← destOf_eq_none_iff, h]; simp
  omega

/-- R128: the answer of a scan, by the nearest producer in the window. -/
theorem scan_eq (p : Params) (s : State) (r : RegNum) (w : Word) :
    scan p s r w =
      if destOf s.idex.instr = some (regIndex r) then
        if (opcode s.idex.instr).toNat = 2 then .loadUse else .forward .ex
      else if destOf s.exmem.instr = some (regIndex r) then .forward .mem
      else if destOf s.memwb.instr = some (regIndex r) then
        if (opcode s.memwb.instr).toNat = 2 ∧ isLoad w = true ∧ p.lwlwFarDrop = true then .none
        else .forward .wb
      else .none := by
  simp only [scan, window, scanList, scanEntry_eq]
  split_ifs <;> simp_all

/-- R130: in a normal cycle the descriptor of a register, through the multiplexer of the next cycle,
gives what the older instructions leave in that register. -/
theorem operand_descriptor {p : Params} {s t : State} {r : RegNum} {w : Word}
    (hp : p.lwlwFarDrop = false) (hh : s.halted = false) (hr : redirect s = false)
    (h : cycle p s = .next t) (hscan : scan p s r w ≠ .loadUse) :
    operand t (descriptorOf (scan p s r w)) (readReg s.reg r) = readReg t.older.reg r := by
  have hx : t.exmem.instr = s.idex.instr := cycle_executes hh (by simp [hr]) h
  rw [scan_eq] at hscan ⊢
  rw [readReg_older_next hh hr h]
  by_cases hd : destOf s.idex.instr = some (regIndex r)
  case pos =>
    have hload : (opcode s.idex.instr).toNat ≠ 2 := fun ho => hscan (by simp [hd, ho])
    have hle : (opcode t.exmem.instr).toNat ≤ 1 := hx ▸ opcode_le_one_of_destOf hd hload
    simp [hd, hload, descriptorOf, operand, memoryAfter_of_le_one hle]
  case neg =>
    by_cases hm : destOf s.exmem.instr = some (regIndex r)
    · simp [hd, hm, descriptorOf, operand]
    · by_cases hb : destOf s.memwb.instr = some (regIndex r)
      · simp [hd, hm, hb, hp, descriptorOf, operand]
      · simp [hd, hm, hb, descriptorOf, operand, Haz.clear]

/-- R131: in a normal cycle neither needed operand is a load-use. -/
theorem scan_ne_loadUse {p : Params} {s : State} (hr : redirect s = false)
    (hs : stall p s = false) :
    (needsA s.ifid.instr = true → scan p s (fieldA s.ifid.instr) s.ifid.instr ≠ .loadUse) ∧
    (needsB s.ifid.instr = true → scan p s (fieldB s.ifid.instr) s.ifid.instr ≠ .loadUse) := by
  have hl : loadUse p s = false := by simpa [stall, hr] using hs
  constructor <;> intro hn hscan <;> simp [loadUse, hn, hscan] at hl

theorem operandsCoherent_of_empty {t : State} (h : t.idex = .empty) : t.operandsCoherent := by
  simp [State.operandsCoherent, h]

/-- R96 (b), R130: every performed cycle leaves coherent operands, whatever state it starts from. -/
theorem cycle_operandsCoherent {p : Params} {s t : State} (hp : p.lwlwFarDrop = false)
    (hh : s.halted = false) (h : cycle p s = .next t) : t.operandsCoherent := by
  obtain ⟨regs, m, f, _, _, hf, ht⟩ := cycle_performed hh h
  have hidex : t.idex = f.idex := by rw [ht, commit_idex]
  rcases frontEnd_ok hf with ⟨_, rfl⟩ | ⟨_, _, rfl⟩ | ⟨hr, hs, _, rfl⟩
  · exact operandsCoherent_of_empty hidex
  · exact operandsCoherent_of_empty hidex
  · obtain ⟨hA, hB⟩ := scan_ne_loadUse hr hs
    simp only [State.operandsCoherent, operandA, operandB, hidex, decodeStage_instr,
      decodeStage_hazA, decodeStage_hazB, decodeStage_readRegA, decodeStage_readRegB]
    constructor
    · intro hn
      rw [descriptorA, if_pos hn]
      exact operand_descriptor hp hh hr h (hA hn)
    · intro hn
      rw [descriptorB, if_pos hn]
      exact operand_descriptor hp hh hr h (hB hn)

/-- Settles O52: a halted machine stays in its coherent state, and every performed cycle leads to one. -/
theorem forwardedOperandsAreProgramOrderValues :
    Obligations.ForwardedOperandsAreProgramOrderValues := by
  have hcycle : ∀ (p : Params) (s t : State), p.lwlwFarDrop = false → s.operandsCoherent →
      cycle p s = .next t → t.operandsCoherent := by
    intro p s t hp hs h
    cases hh : s.halted with
    | true => rw [cycle_of_halted hh] at h; cases h; exact hs
    | false => exact cycle_operandsCoherent hp hh h
  exact ⟨fun s t => hcycle defaultParams s t rfl, hcycle, fun p s t => cycle_operandsCoherent⟩

end Sys2Proof.Machine
end

section
/-!
PROOFS. One cycle of the pipeline (R81 to R83, R89, R92 to R94): the halted test, the three cases of the
front end, the order of faults, and the two invariants of the front latches.
-/

namespace Sys2Proof.Machine

open Sys2Proof Sys2Proof.Config Sys2Proof.Laws

/-! ### The halted test and the counter (R81, R92) -/

/-- Settles O26: the halted test reads the opcode field, and an unrecognised word's field is above 7. -/
theorem haltedStateIsPermanent : Obligations.HaltedStateIsPermanent := by
  intro p s
  refine ⟨fun ho => ?halted, fun ho t h => cycle_counts (halted_of_ne ho) h, fun e he => ?rejected⟩
  case halted =>
    have hh : s.halted = true := (halted_iff s).mpr ho
    exact ⟨cycle_of_halted hh p, runCycles_of_halted hh p⟩
  case rejected =>
    rcases decode_by_opcode s.memwb.instr with ⟨_, i, hi⟩ | ⟨hgt, _⟩
    · simp [hi] at he
    · omega

/-- Settles O33: what `commit` writes into the counter and the program. -/
theorem performedCycleCountsOne : Obligations.PerformedCycleCountsOne := by
  intro p s t hh h
  obtain ⟨hmem, hlen⟩ := cycle_sameProgram h
  exact ⟨cycle_counts hh h, hmem, hlen⟩

/-! ### The front end (R82, R83, R89) -/

/-- R82: a redirect cycle goes to the branch target and empties IFID and IDEX. -/
theorem cycle_redirects {p : Params} {s t : State} (hh : s.halted = false) (hr : redirect s = true)
    (h : cycle p s = .next t) :
    t.pc = s.exmem.branchTarget ∧ t.ifid = .empty ∧ t.idex = .empty := by
  obtain ⟨regs, m, f, _, _, hf, rfl⟩ := cycle_performed hh h
  rcases frontEnd_ok hf with ⟨_, rfl⟩ | ⟨hr', _⟩ | ⟨hr', _⟩
  · exact ⟨rfl, rfl, rfl⟩
  · simp [hr] at hr'
  · simp [hr] at hr'

/-- R82: a stall cycle holds the pc and IFID and empties IDEX. -/
theorem cycle_stalls {p : Params} {s t : State} (hh : s.halted = false) (hs : stall p s = true)
    (h : cycle p s = .next t) : t.pc = s.pc ∧ t.ifid = s.ifid ∧ t.idex = .empty := by
  obtain ⟨regs, m, f, _, _, hf, rfl⟩ := cycle_performed hh h
  rcases frontEnd_ok hf with ⟨hr', _⟩ | ⟨_, _, rfl⟩ | ⟨_, hs', _⟩
  · simp [stall, hr'] at hs
  · exact ⟨rfl, rfl, rfl⟩
  · simp [hs] at hs'

/-- R82: a normal cycle fetches the word at the pc and decodes the word in IFID. -/
theorem cycle_normal {p : Params} {s t : State} (hh : s.halted = false) (hr : redirect s = false)
    (hs : stall p s = false) (h : cycle p s = .next t) :
    s.pc.toNat < memWords ∧ t.pc = s.pc + 1 ∧
      t.ifid = ⟨s.instrMem.read s.pc.toNat, s.pc + 1⟩ ∧ t.idex = decodeStage p s := by
  obtain ⟨regs, m, f, _, _, hf, rfl⟩ := cycle_performed hh h
  rcases frontEnd_ok hf with ⟨hr', _⟩ | ⟨_, hs', _⟩ | ⟨_, _, hpc, rfl⟩
  · simp [hr] at hr'
  · simp [hs] at hs'
  · exact ⟨hpc, rfl, rfl, rfl⟩

/-- Settles O27: the three cases of the front end. -/
theorem frontEndCases : Obligations.FrontEndCases := by
  intro p s t hh h
  refine ⟨fun hr => cycle_redirects hh hr h, fun _ hs => cycle_stalls hh hs h, fun hr hs => ?_⟩
  obtain ⟨hpc, hnext, hifid, hidex⟩ := cycle_normal hh hr hs h
  rw [hifid]
  exact ⟨Nat.le_of_lt_succ hpc, rfl, rfl, hnext, hidex⟩

/-- Settles O28: a normal cycle leaves `decodeStage` of the old state in IDEX. -/
theorem decodeReadsOldRegisters : Obligations.DecodeReadsOldRegisters := by
  intro p s t hh hr hs h
  obtain ⟨_, _, _, hidex⟩ := cycle_normal hh hr hs h
  rw [hidex]
  exact ⟨rfl, rfl, rfl, rfl, rfl, rfl, rfl⟩

theorem cycle_exmem {p : Params} {s t : State} (hh : s.halted = false) (h : cycle p s = .next t) :
    t.exmem = nextExMem p s := by
  obtain ⟨regs, m, f, _, _, _, rfl⟩ := cycle_performed hh h
  rfl

/-- R89: a redirect under `SQUASH_EXECUTE` empties EXMEM. -/
theorem nextExMem_of_squashed {p : Params} {s : State}
    (h : (redirect s && p.squashExecute) = true) : nextExMem p s = .empty := by
  simp [nextExMem, h]

/-- Settles O30: the front latches as in every redirect cycle, EXMEM as the parameter says. -/
theorem slotInstructionCompletesByDefault : Obligations.SlotInstructionCompletesByDefault := by
  intro p s t hh hr h
  obtain ⟨_, hifid, hidex⟩ := cycle_redirects hh hr h
  refine ⟨hifid, hidex, fun hsq => ?_, fun hsq => ?_, rfl⟩
  · rw [cycle_exmem hh h, nextExMem_of_squashed (by simp [hr, hsq])]
  · rw [cycle_exmem hh h, nextExMem_of_not_squashed (by simp [hsq])]
    exact ⟨rfl, rfl⟩

/-! ### The faults and their order (R93, R101, R104) -/

theorem frontEnd_of_fetchFaults {p : Params} {s : State} (h : s.fetchFaults p) :
    frontEnd p s = .error (.fetchAddressOutOfRange s.pc) := by
  obtain ⟨hr, hs, hpc⟩ := h
  simp [frontEnd_normal hr hs, iFetch, inRange_of_gt hpc, Except.map]

theorem frontEnd_of_not_faults {p : Params} {s : State} (h : ¬ s.fetchFaults p) :
    ∃ f, frontEnd p s = .ok f := by
  cases hf : frontEnd p s with
  | ok f => exact ⟨f, rfl⟩
  | error g =>
    obtain ⟨hr, hs, hpc, _⟩ := frontEnd_error hf
    exact absurd ⟨hr, hs, hpc⟩ h

/-- A running machine without a fault performs its cycle (R93). -/
theorem cycle_answers {p : Params} {s : State} (hh : s.halted = false) (hw : ¬ s.writebackFaults)
    (hm : ¬ s.memoryFaults) (hf : ¬ s.fetchFaults p) : ∃ t, cycle p s = .next t := by
  obtain ⟨regs, hregs⟩ := writebackStage_of_not_faults hw
  obtain ⟨m, hmem⟩ := memoryStage_of_not_faults hm
  obtain ⟨f, hfront⟩ := frontEnd_of_not_faults hf
  exact ⟨_, cycle_of_stages hh hregs hmem hfront⟩

/-- A cycle never refuses (R100). -/
theorem cycle_ne_refused (p : Params) (s : State) (r : Refusal) : cycle p s ≠ .refused r := by
  unfold cycle
  split
  · simp
  · split
    · simp
    · split
      · simp
      · split <;> simp

/-- Settles O34: each fault with the stages before it answering, and the answer without any. -/
theorem faultKindsAndPriority : Obligations.FaultKindsAndPriority := by
  intro p s
  refine ⟨fun hh => cycle_of_halted hh p, fun hh => ⟨fun hw => ?writeback, fun hw hm => ?memory,
    fun hw hm hf => ?fetch, fun hw hm hf => cycle_answers hh hw hm hf⟩, cycle_ne_refused p s⟩
  case writeback =>
    obtain ⟨ho, hd⟩ := hw
    exact cycle_of_reserved_dest hh (destOf_of_le_one ho) hd p
  case memory =>
    obtain ⟨regs, hregs⟩ := writebackStage_of_not_faults hw
    obtain ⟨ho, ha⟩ := hm
    exact cycle_of_memory_error hh hregs (memoryStage_of_outside ho ha)
  case fetch =>
    obtain ⟨regs, hregs⟩ := writebackStage_of_not_faults hw
    obtain ⟨m, hmem⟩ := memoryStage_of_not_faults hm
    exact cycle_of_fetch_error hh hregs hmem (frontEnd_of_fetchFaults hf)

/-! ### The words in the front latches (R82, R83) -/

/-- The address before the next one is the address itself. -/
theorem nextPc_sub_one (pc : Word) : nextPc pc - 1 = pc := by
  simp [nextPc]

/-- Settles O50: IFID takes a bubble, keeps its word or fetches one; IDEX takes a bubble or the word of
IFID. -/
theorem latchedWordsComeFromInstructionMemory :
    Obligations.LatchedWordsComeFromInstructionMemory := by
  apply invariant_of_commit (P := State.fetchCoherent)
  rintro p s regs m f ⟨hifid, _, _⟩ _ _ hf
  have hbubble : (0 : Word) = sext16 (fieldImm noopWord) := by decide
  rcases frontEnd_ok hf with ⟨_, rfl⟩ | ⟨_, _, rfl⟩ | ⟨_, _, hpc, rfl⟩
  case inl => exact ⟨.inl ⟨rfl, rfl⟩, .inl ⟨rfl, rfl⟩, hbubble⟩
  case inr.inl => exact ⟨hifid, .inl ⟨rfl, rfl⟩, hbubble⟩
  case inr.inr =>
    refine ⟨.inr ?_, hifid, rfl⟩
    simp only [commit_ifid, commit_instrMem, nextPc_sub_one]
    exact ⟨inRange_of_le (Nat.le_of_lt_succ hpc), trivial⟩

/-! ### The descriptors in IDEX (R85, R128) -/

theorem sourced_of_clear (t : State) (r : RegNum) : t.sourced .clear r :=
  fun h => absurd h (by decide)

/-- R128: an entry that forwards produces the register, and from `SRC_EX` it is no load. -/
theorem scanEntry_forward_dest {p : Params} {w : Word} {r : RegNum} {entry : Word} {tag src : HazSrc}
    (h : scanEntry p w r entry tag = .forward src) :
    destOf entry = some (regIndex r) ∧ (tag = .ex → (opcode entry).toNat ≠ 2) := by
  rw [scanEntry_eq] at h
  split_ifs at h with hd ho hex
  · exact ⟨hd, fun htag => absurd htag hex⟩
  · exact ⟨hd, fun _ => ho⟩

/-- R85, R128: one cycle after the scan every window entry stands one latch further on, where the tag
of its descriptor says. -/
theorem sourced_descriptor {p : Params} {s t : State} (hx : t.exmem.instr = s.idex.instr)
    (hm : t.memwb.instr = s.exmem.instr) (hb : t.wbend.instr = s.memwb.instr) (r : RegNum)
    (w : Word) : t.sourced (descriptorOf (scan p s r w)) r := by
  cases hscan : scan p s r w with
  | none => exact sourced_of_clear t r
  | loadUse => exact sourced_of_clear t r
  | forward src =>
    obtain ⟨entry, hmem, hentry⟩ := scan_forward hscan
    obtain ⟨hd, hex⟩ := scanEntry_forward_dest hentry
    rw [State.sourced, hx, hm, hb]
    intro _
    simp only [window, List.mem_cons, Prod.mk.injEq, List.not_mem_nil, or_false] at hmem
    rcases hmem with ⟨rfl, rfl⟩ | ⟨rfl, rfl⟩ | ⟨rfl, rfl⟩
    · exact .inl ⟨rfl, opcode_le_one_of_destOf hd (hex rfl), hd⟩
    · exact .inr (.inl ⟨rfl, hd⟩)
    · exact .inr (.inr ⟨rfl, hd⟩)

theorem sourced_descriptors {p : Params} {s t : State} (hx : t.exmem.instr = s.idex.instr)
    (hm : t.memwb.instr = s.exmem.instr) (hb : t.wbend.instr = s.memwb.instr) (w : Word) :
    t.sourced (descriptorA p s w) (fieldA w) ∧ t.sourced (descriptorB p s w) (fieldB w) := by
  constructor
  · unfold descriptorA
    split
    · exact sourced_descriptor hx hm hb _ w
    · exact sourced_of_clear t _
  · unfold descriptorB
    split
    · exact sourced_descriptor hx hm hb _ w
    · exact sourced_of_clear t _

theorem hazSourced_of_empty {t : State} (h : t.idex = .empty) : t.hazSourced := by
  rw [State.hazSourced, h]
  exact ⟨sourced_of_clear t _, sourced_of_clear t _⟩

/-- Settles O51: IDEX takes a bubble, or the word of IFID with what the scans found. -/
theorem descriptorsPointAtProducers : Obligations.DescriptorsPointAtProducers := by
  apply invariant_of_commit (P := State.hazSourced)
  intro p s regs m f _ _ hm hf
  rcases frontEnd_ok hf with ⟨_, rfl⟩ | ⟨_, _, rfl⟩ | ⟨hr, _, _, rfl⟩
  · exact hazSourced_of_empty rfl
  · exact hazSourced_of_empty rfl
  · have hx : (nextExMem p s).instr = s.idex.instr := by
      rw [nextExMem_of_not_squashed (by simp [hr]), executeStage_instr]
    obtain ⟨_, hinstr, _, _⟩ := memoryStage_ok hm
    exact sourced_descriptors hx hinstr rfl s.ifid.instr

end Sys2Proof.Machine
end

section
/-!
PROOFS. The program-order effect of a word is the work of the stages done at once (R62 to R75 against
R86 to R90), and one cycle carries out the instruction in IDEX so (R96).
-/

namespace Sys2Proof.Machine

open Sys2Proof Sys2Proof.Config Sys2Proof.Laws

/-! ### The stages' work, done at once in program order -/

/-- R86: the ALU result of `w` on the registers of `o`. -/
def orderAlu (o : State) (w : Word) : Word :=
  aluResultOf w (readReg o.reg (fieldA w)) (readReg o.reg (fieldB w)) (sext16 (fieldImm w))

/-- R87: the branch outcome and target of `w` at the pc of `o`. -/
def orderBranch (o : State) (w : Word) : Bool × Word :=
  branchUnit w (readReg o.reg (fieldA w)) (readReg o.reg (fieldB w)) (nextPc o.pc)
    (sext16 (fieldImm w))

/-- R88: the memory access of `w` on the registers and data memory of `o`. -/
def orderMemory (o : State) (w : Word) : Except Fault (Word × Memory) :=
  memoryOf w o.dataMem (orderAlu o w) (readReg o.reg (fieldB w))

/-- The address after `w`: the branch target if it is taken. -/
def orderPc (o : State) (w : Word) : Word :=
  if (orderBranch o w).1 then (orderBranch o w).2 else nextPc o.pc

/-- Execute, memory and writeback of `w` one after the other on the state `o`. -/
def stagedEffect (w : Word) (o : State) : Host.Outcome State Fault Refusal :=
  match orderMemory o w with
  | .error f => .fault f
  | .ok r =>
    match writebackOf w o.reg r.1 with
    | .error f => .fault f
    | .ok regs => .next { o with reg := regs, dataMem := r.2, pc := orderPc o w }

theorem orderPc_of_ne {o : State} {w : Word} (h : (opcode w).toNat ≠ 4) :
    orderPc o w = nextPc o.pc := by
  simp [orderPc, orderBranch, branchUnit_of_ne h]

theorem orderAlu_of_access {o : State} {w : Word} (h : (opcode w).toNat = 2 ∨ (opcode w).toNat = 3) :
    orderAlu o w = effectiveAddress (readReg o.reg (fieldA w)) (sext16 (fieldImm w)) := by
  rw [orderAlu, aluResultOf_eq, if_neg (by omega), if_neg (by omega), if_pos (by omega)]
  rfl

/-- R62, R63: the stages of `add` and `nor` write the ALU result. -/
theorem stagedEffect_of_le_one {w : Word} (o : State) (h : (opcode w).toNat ≤ 1) :
    stagedEffect w o = completeReg o (fieldImm w) (orderAlu o w) := by
  have hmem : orderMemory o w = .ok (orderAlu o w, o.dataMem) := by
    rw [orderMemory, memoryOf_eq, if_pos h]
  rcases writeReg_cases o.reg (fieldImm w) (orderAlu o w) with ⟨_, hw⟩ | ⟨_, hw⟩ <;>
    simp [stagedEffect, hmem, writebackOf, destOf_of_le_one h, completeReg, hw,
      orderPc_of_ne (by omega : (opcode w).toNat ≠ 4)]

/-- R67: the stages of `lw` write the word they read. -/
theorem stagedEffect_of_load {w : Word} (o : State) (h : (opcode w).toNat = 2) :
    stagedEffect w o = execLw (fieldA w) (fieldB w) (fieldImm w) o := by
  have hpc : orderPc o w = nextPc o.pc := orderPc_of_ne (by omega)
  have hmem : orderMemory o w = (memRead o.dataMem (orderAlu o w)).map (·, o.dataMem) := by
    simp [orderMemory, memoryOf_eq, h]
  rw [execLw, ← orderAlu_of_access (.inl h)]
  rcases memRead_cases o.dataMem (orderAlu o w) with ⟨_, hr⟩ | ⟨_, hr⟩ <;>
    simp [stagedEffect, hmem, hr, Except.map, writebackOf, destOf_of_eq_two h, completeReg,
      writeReg_regIndex, hpc]

/-- R68: the stages of `sw` store register B. -/
theorem stagedEffect_of_store {w : Word} (o : State) (h : (opcode w).toNat = 3) :
    stagedEffect w o = execSw (fieldA w) (fieldB w) (fieldImm w) o := by
  have hpc : orderPc o w = nextPc o.pc := orderPc_of_ne (by omega)
  have hmem : orderMemory o w =
      (memWrite o.dataMem (orderAlu o w) (readReg o.reg (fieldB w))).map (0, ·) := by
    simp [orderMemory, memoryOf_eq, h]
  have hdest : destOf w = none := (destOf_eq_none_iff w).mpr (by omega)
  rw [execSw, ← orderAlu_of_access (.inr h)]
  rcases memWrite_cases o.dataMem (orderAlu o w) (readReg o.reg (fieldB w)) with
    ⟨_, hr⟩ | ⟨_, hr⟩ <;>
    simp [stagedEffect, hmem, hr, Except.map, writebackOf_of_none hdest, completeStore, hpc]

/-- R70, R71, R74, R75: every other word changes the pc only. -/
theorem stagedEffect_of_gt {w : Word} (o : State) (h : 3 < (opcode w).toNat) :
    stagedEffect w o = .next { o with pc := orderPc o w } := by
  have hdest : destOf w = none := (destOf_eq_none_iff w).mpr (by omega)
  simp [stagedEffect, orderMemory, memoryOf_of_gt h, writebackOf_of_none hdest]

/-- Every word but `halt` has in program order the effect of its stages (R62 to R71, R74, R75). -/
theorem execWord_eq_stagedEffect {w : Word} (o : State) (h : (opcode w).toNat ≠ 6) :
    execWord w o = stagedEffect w o := by
  have hwrite : (opcode w).toNat ≤ 1 → stagedEffect w o = completeReg o (fieldImm w) (orderAlu o w) :=
    stagedEffect_of_le_one o
  have hpc : 3 < (opcode w).toNat → stagedEffect w o = .next { o with pc := orderPc o w } :=
    stagedEffect_of_gt o
  have hidle : 4 < (opcode w).toNat → stagedEffect w o = advance o := fun ho => by
    rw [hpc (by omega), orderPc_of_ne (by omega)]
    rfl
  rcases decode_cases w with ⟨ho, e⟩ | ⟨ho, e⟩ | ⟨ho, e⟩ | ⟨ho, e⟩ | ⟨ho, e⟩ |
      ⟨ho, e⟩ | ⟨ho, e⟩ | ⟨ho, e⟩ | ⟨ho, e⟩ <;>
    simp only [execWord, e, exec]
  case inl => simp [hwrite (by omega), orderAlu, aluResultOf_eq, ho, execAdd, aluAdd]
  case inr.inl => simp [hwrite (by omega), orderAlu, aluResultOf_eq, ho, execNor, aluNor]
  case inr.inr.inl => exact (stagedEffect_of_load o ho).symm
  case inr.inr.inr.inl => exact (stagedEffect_of_store o ho).symm
  case inr.inr.inr.inr.inl =>
    have hbranch := branchUnit_of_beq ho
    rcases exec_beq_cases (fieldA w) (fieldB w) (fieldImm w) o with ⟨heq, hnext⟩ | ⟨hne, hnext⟩
    · exact hnext.trans (by simp [hpc (by omega), orderPc, orderBranch, hbranch, heq, nextPc])
    · exact hnext.trans (by simp [hpc (by omega), orderPc, orderBranch, hbranch, hne, nextPc])
  case inr.inr.inr.inr.inr.inr.inl => exact absurd ho h
  all_goals exact (hidle (by omega)).symm

/-- R72: `halt` in program order, as a word: it stands in MEMWB and nothing else changes. -/
theorem execWord_of_halt {w : Word} (o : State) (h : (opcode w).toNat = 6) :
    execWord w o = .next { o with memwb := { MemWbLatch.empty with instr := w } } := by
  have hdec : decode w = .ok (.halt (fieldA w) (fieldB w) (fieldImm w)) := by simp [decode, h]
  simp only [execWord, hdec, exec, execHalt, encodeOfDecodeIsWord w _ hdec]

/-- Everything a word leaves in program order: the work of its stages, and its pc or, for `halt`, its
word in MEMWB. -/
theorem execWord_next {w : Word} {o u : State} (h : execWord w o = .next u) :
    (∃ v, orderMemory o w = .ok (v, u.dataMem) ∧ writebackOf w o.reg v = .ok u.reg) ∧
    u.instrMem = o.instrMem ∧
    (((opcode w).toNat ≠ 6 ∧ u.pc = orderPc o w ∧ u.memwb = o.memwb) ∨
      ((opcode w).toNat = 6 ∧ u.memwb.instr = w)) := by
  by_cases h6 : (opcode w).toNat = 6
  · rw [execWord_of_halt o h6] at h
    cases h
    have hdest : destOf w = none := (destOf_eq_none_iff w).mpr (by omega)
    exact ⟨⟨0, memoryOf_of_gt (by omega) _ _ _, writebackOf_of_none hdest _ _⟩, rfl, .inr ⟨h6, rfl⟩⟩
  · rw [execWord_eq_stagedEffect o h6, stagedEffect] at h
    cases hm : orderMemory o w with
    | error f => simp [hm] at h
    | ok r =>
      cases hw : writebackOf w o.reg r.1 with
      | error f => simp [hm, hw] at h
      | ok regs =>
        simp only [hm, hw, Host.Outcome.next.injEq] at h
        subst h
        exact ⟨⟨r.1, rfl, hw⟩, rfl, .inl ⟨h6, rfl, rfl⟩⟩

/-- Where a word faults in program order: in its memory access, or else in its writeback. -/
theorem execWord_fault {w : Word} {o : State} {f : Fault} (h : execWord w o = .fault f) :
    orderMemory o w = .error f ∨
      ∃ r, orderMemory o w = .ok r ∧ writebackOf w o.reg r.1 = .error f := by
  have h6 : (opcode w).toNat ≠ 6 := fun h6 => by simp [execWord_of_halt o h6] at h
  rw [execWord_eq_stagedEffect o h6, stagedEffect] at h
  cases hm : orderMemory o w with
  | error g => simp_all
  | ok r => cases hw : writebackOf w o.reg r.1 <;> simp_all

theorem execWord_of_decode {w : Word} {i : Instr} (h : decode w = .ok i) (o : State) :
    execWord w o = exec i o := by
  simp [execWord, h]

/-! ### One cycle carries out the instruction in IDEX (R86, R87, R96) -/

/-- Program order sees the registers and the data memory of `o` before the instruction in IDEX. -/
structure State.Views (s o : State) : Prop where
  reg     : s.older.reg = o.reg
  dataMem : s.older.dataMem = o.dataMem

/-- The cycle of `s` executes the instruction in IDEX, on the operands of program order. -/
structure State.Executes (p : Params) (s : State) : Prop where
  running  : s.halted = false
  kept     : (redirect s && p.squashExecute) = false
  operands : s.operandsCoherent
  offset   : s.idex.offset = sext16 (fieldImm s.idex.instr)

section Executes
variable {p : Params} {s t o : State}

theorem State.Executes.exmem (hx : s.Executes p) (h : cycle p s = .next t) :
    t.exmem = executeStage s := by
  rw [cycle_exmem hx.running h, nextExMem_of_not_squashed hx.kept]

/-- The access that the next memory stage makes is the one of program order (R86, R88). -/
theorem State.Executes.memory (hx : s.Executes p) (h : cycle p s = .next t) (hv : s.Views o) :
    memoryOf t.exmem.instr t.dataMem t.exmem.aluResult t.exmem.readRegB =
      orderMemory o s.idex.instr := by
  obtain ⟨hA, hB⟩ := hx.operands
  obtain ⟨hdata, _, _⟩ := cycle_older hx.running h
  rw [hx.exmem h, executeStage_instr, executeStage_aluResult, executeStage_readRegB, hx.offset,
    aluResultOf_congr hA hB, hdata, orderMemory, orderAlu, ← hv.reg, ← hv.dataMem]
  exact memoryOf_congr (fun _ => rfl) hB _

/-- The branch outcome and target in the next EXMEM are those of program order (R87). -/
theorem State.Executes.branch (hx : s.Executes p) (h : cycle p s = .next t) (hv : s.Views o)
    (hpc : nextPc o.pc = s.idex.pcPlus1) :
    (t.exmem.branchTaken, t.exmem.branchTarget) = orderBranch o s.idex.instr := by
  obtain ⟨hA, hB⟩ := hx.operands
  rw [hx.exmem h, executeStage_branchTaken, executeStage_branchTarget, hx.offset,
    branchUnit_congr hA hB, orderBranch, ← hv.reg, hpc]

theorem State.Executes.orderPc (hx : s.Executes p) (h : cycle p s = .next t) (hv : s.Views o)
    (hpc : nextPc o.pc = s.idex.pcPlus1) :
    orderPc o s.idex.instr =
      if t.exmem.branchTaken then t.exmem.branchTarget else s.idex.pcPlus1 := by
  rw [Machine.orderPc, ← hx.branch h hv hpc, hpc]

/-- Seen past the instruction in IDEX, the next state is what program order leaves. -/
theorem State.Executes.views {u : State} (hx : s.Executes p) (h : cycle p s = .next t)
    (hv : s.Views o) (hu : execWord s.idex.instr o = .next u) : t.Views u := by
  obtain ⟨⟨v, hmem, hwrite⟩, _⟩ := execWord_next hu
  obtain ⟨_, _, hreg⟩ := cycle_older hx.running h
  have hafter : memoryAfter t = (v, u.dataMem) :=
    memoryAfter_of_ok ((hx.memory h hv).trans hmem)
  constructor
  · rw [hreg, hafter, hx.exmem h, executeStage_instr, hv.reg, regsAfter_of_ok hwrite]
  · rw [older_dataMem, hafter]

end Executes

/-- A cycle that leaves an idle word in EXMEM does not change what program order sees. -/
theorem State.Views.of_idle {p : Params} {s t o : State} (hh : s.halted = false)
    (h : cycle p s = .next t) (hv : s.Views o) (hidle : 3 < (opcode t.exmem.instr).toNat) :
    t.Views o := by
  obtain ⟨hdata, _, hreg⟩ := cycle_older hh h
  have hafter : memoryAfter t = (0, t.dataMem) := memoryAfter_of_ok (memoryOf_of_gt hidle _ _ _)
  have hdest : destOf t.exmem.instr = none := (destOf_eq_none_iff _).mpr (by omega)
  constructor
  · rw [hreg, regsAfter_of_none hdest, hv.reg]
  · rw [older_dataMem, hafter, hdata, hv.dataMem]

/-- Settles O57: `State.Executes.views` for the instructions, an idle word for the unrecognised. -/
theorem cycleCarriesOutInstructionInExecute : Obligations.CycleCarriesOutInstructionInExecute := by
  intro p s t hh hsq hcoherent hoffset h
  have hx : s.Executes p := ⟨hh, hsq, hcoherent, hoffset⟩
  refine ⟨fun i u hdec hexec => ?instruction, fun e hdec => ?unrecognised⟩
  case instruction =>
    rw [← execWord_of_decode hdec] at hexec
    have hv : s.Views { s.older with pc := s.idex.pcPlus1 - 1 } := ⟨rfl, rfl⟩
    obtain ⟨hreg, hdata⟩ := hx.views h hv hexec
    refine ⟨hreg, hdata, fun h6 => ?_⟩
    obtain ⟨_, _, ⟨_, hpc, _⟩ | ⟨h6', _⟩⟩ := execWord_next hexec
    · rw [hpc, hx.orderPc h hv (by simp [nextPc])]
    · exact absurd h6' h6
  case unrecognised =>
    have hgt : 7 < (opcode s.idex.instr).toNat := by
      rcases decode_by_opcode s.idex.instr with ⟨_, i, hi⟩ | ⟨hgt, _⟩
      · simp [hi] at hdec
      · exact hgt
    have hidle : 3 < (opcode t.exmem.instr).toNat := by
      rw [hx.exmem h, executeStage_instr]; omega
    obtain ⟨hreg, hdata⟩ := State.Views.of_idle hh h ⟨rfl, rfl⟩ hidle
    refine ⟨hreg, hdata, ?_⟩
    rw [hx.exmem h, executeStage_branchTaken, branchUnit_of_ne (by omega)]

end Sys2Proof.Machine
end

section
/-!
PROOFS. An instruction on its way through the pipeline: where its own fault stops the machine (R93, R101),
and the steps of a word fetched with nothing else in flight (R82 to R90, R94).
-/

namespace Sys2Proof.Machine

open Sys2Proof Sys2Proof.Config Sys2Proof.Laws

/-! ### An instruction that faults (R93, R101, R103) -/

/-- R56: only an `add` or a `nor` can have a destination index above 7. -/
theorem opcode_le_one_of_reserved {w : Word} {d : Imm16} (h : destOf w = some d)
    (hd : 8 ≤ d.toNat) : (opcode w).toNat ≤ 1 := by
  refine opcode_le_one_of_destOf h fun h2 => ?_
  rw [destOf_of_eq_two h2] at h
  cases h
  exact absurd (regIndex_lt (fieldB w)) (by omega)

/-- The fault of an instruction that has been executed comes in the next cycle from its memory access, or
in the one after from its writeback, unless a fetch faults first. -/
theorem State.Executes.fault {p : Params} {s t o : State} {f : Fault} (hx : s.Executes p)
    (h : cycle p s = .next t) (hv : s.Views o) (hf : execWord s.idex.instr o = .fault f)
    (ht : t.halted = false) (hnw : ¬ t.writebackFaults) :
    (((opcode s.idex.instr).toNat = 2 ∨ (opcode s.idex.instr).toNat = 3) ∧ cycle p t = .fault f) ∨
    ((opcode s.idex.instr).toNat ≤ 1 ∧
      (cycle p t = .fault (.fetchAddressOutOfRange t.pc) ∨
        ∃ u, cycle p t = .next u ∧ cycle p u = .fault f)) := by
  have hinstr : t.exmem.instr = s.idex.instr := by rw [hx.exmem h, executeStage_instr]
  have haccess := hx.memory h hv
  obtain ⟨regs, hregs⟩ := writebackStage_of_not_faults hnw
  rcases execWord_fault hf with hmem | ⟨r, hmem, hwrite⟩ <;> rw [hmem] at haccess
  case inl =>
    obtain ⟨ho, _⟩ := memoryOf_error haccess
    rw [hinstr] at ho
    exact .inl ⟨ho, cycle_of_memory_error ht hregs (by rw [memoryStage, haccess]; rfl)⟩
  case inr =>
    obtain ⟨d, hdest, hd, rfl⟩ := writebackOf_error hwrite
    have ho := opcode_le_one_of_reserved hdest hd
    have hnm : ¬ t.memoryFaults := fun ⟨hop, _⟩ => by rw [hinstr] at hop; omega
    obtain ⟨m, hm⟩ := memoryStage_of_not_faults hnm
    refine .inr ⟨ho, ?_⟩
    cases hfront : frontEnd p t with
    | error g =>
      obtain ⟨_, _, _, rfl⟩ := frontEnd_error hfront
      exact .inl (cycle_of_fetch_error ht hregs hm hfront)
    | ok fe =>
      have hu := cycle_of_stages ht hregs hm hfront
      have hmemwb := (cycle_accesses ht hu).trans hinstr
      refine .inr ⟨_, hu, cycle_of_reserved_dest (halted_of_ne ?_) (hmemwb ▸ hdest) hd p⟩
      rw [hmemwb]
      omega

/-- Settles O58: `State.Executes.fault` for the state that `State.older` names. -/
theorem faultOfInstructionStopsTheMachine : Obligations.FaultOfInstructionStopsTheMachine := by
  intro p s t i f hh hsq hcoherent hoffset h hdec hexec ht hnw
  have hx : s.Executes p := ⟨hh, hsq, hcoherent, hoffset⟩
  rw [← execWord_of_decode hdec] at hexec
  have hv : s.Views { s.older with pc := s.idex.pcPlus1 - 1 } := ⟨rfl, rfl⟩
  rcases hx.fault h hv hexec ht hnw with ⟨ho, hfault⟩ | ⟨ho, hfault⟩
  · exact ⟨by omega, fun _ => hfault, fun ho' => by omega⟩
  · exact ⟨by omega, fun ho' => by omega, fun _ => hfault⟩

/-! ### A word with nothing else in flight (R82 to R88) -/

/-- With no work in EXMEM and MEMWB and the pc inside the memory a cycle is performed and no redirect. -/
theorem cycle_answers_of_idle {s : State} (hx : s.exmem.instr = noopWord)
    (hm : s.memwb.instr = noopWord) (hpc : s.pc.toNat ≤ 65535) (p : Params) :
    s.halted = false ∧ redirect s = false ∧ ∃ t, cycle p s = .next t := by
  have hh : s.halted = false := halted_of_ne (by simp [hm])
  refine ⟨hh, redirect_of_ne (by simp [hx]), cycle_answers hh ?_ ?_ ?_⟩
  · simp [State.writebackFaults, hm]
  · simp [State.memoryFaults, hx]
  · exact fun hf => by
      obtain ⟨_, _, hgt⟩ := hf
      omega

theorem toNat_add_one {pc : Word} (h : pc.toNat ≤ 65535) : (pc + 1).toNat = pc.toNat + 1 := by
  have h1 : (1 : Word).toNat = 1 := rfl
  rw [BitVec.toNat_add, h1]
  omega

/-- Nothing in flight is older than the fetch: program order sees the state itself. -/
theorem views_self_of_idle {s : State} (hx : s.exmem.instr = noopWord)
    (hm : s.memwb.instr = noopWord) : s.Views s := by
  have hafter : memoryAfter s = (0, s.dataMem) :=
    memoryAfter_of_ok (memoryOf_of_gt (by simp [hx]) _ _ _)
  constructor
  · rw [older_reg, hx, hm, regsAfter_of_none destOf_noopWord, regsAfter_of_none destOf_noopWord]
  · rw [older_dataMem, hafter]

/-- The first step of a drained machine fetches the word at the pc (R82). -/
theorem step_of_drained {s : State} (hd : s.drained) (hpc : s.pc.toNat ≤ 65535) :
    ∃ t, step s = .next t ∧ t.pc = s.pc + 1 ∧
      t.ifid = ⟨s.instrMem.read s.pc.toNat, s.pc + 1⟩ ∧ t.idex.instr = noopWord ∧
      t.exmem.instr = noopWord ∧ t.memwb.instr = noopWord ∧ t.Views s := by
  obtain ⟨hif, hid, hex, hmw⟩ := hd
  have hx : s.exmem.instr = noopWord := by rw [hex, emptyExMem_instr]
  have hm : s.memwb.instr = noopWord := by rw [hmw, emptyMemWb_instr]
  obtain ⟨hh, hr, t, h⟩ := cycle_answers_of_idle hx hm hpc defaultParams
  have hs : stall defaultParams s = false := stall_of_opcode_gt_four (by simp [hif]) _
  obtain ⟨_, hpc', hifid, hidex⟩ := cycle_normal hh hr hs h
  have hexmem : t.exmem.instr = noopWord := by
    rw [cycle_executes hh (by simp [hr]) h, hid, emptyIdEx_instr]
  refine ⟨t, h, hpc', hifid, ?_, hexmem, (cycle_accesses hh h).trans hx, ?_⟩
  · rw [hidex, decodeStage_instr, hif, emptyIfId_instr]
  · exact (views_self_of_idle hx hm).of_idle hh h (by simp [hexmem])

/-- The first three steps of a drained machine fetch, decode and execute the word at the pc (R82, R83,
R86): its cycle in IDEX executes it on what program order sees, the state the steps began with. -/
theorem three_steps_of_drained {s : State} (hd : s.drained) (hpc : s.pc.toNat + 2 ≤ 65535) :
    ∃ t1 t2 t3, step s = .next t1 ∧ step t1 = .next t2 ∧ step t2 = .next t3 ∧
      t1.ifid.instr = s.instrMem.read s.pc.toNat ∧
      t2.idex.instr = s.instrMem.read s.pc.toNat ∧ t2.idex.pcPlus1 = nextPc s.pc ∧
      t2.Executes defaultParams ∧ t2.Views s ∧
      t3.memwb.instr = noopWord ∧ t3.pc.toNat ≤ s.pc.toNat + 3 := by
  obtain ⟨t1, h1, hpc1, hifid1, hidex1, hexmem1, hmemwb1, hv1⟩ := step_of_drained hd (by omega)
  have hpc1' : t1.pc.toNat = s.pc.toNat + 1 := by rw [hpc1, toNat_add_one (by omega)]
  obtain ⟨hh1, hr1, t2, h2⟩ := cycle_answers_of_idle hexmem1 hmemwb1 (by omega) defaultParams
  have hs1 : stall defaultParams t1 = false :=
    stall_of_loadUse_false (loadUse_of_not_load (by simp [hidex1]))
  obtain ⟨_, hpc2, _, hidex2⟩ := cycle_normal hh1 hr1 hs1 h2
  have hpc2' : t2.pc.toNat = s.pc.toNat + 2 := by rw [hpc2, toNat_add_one (by omega), hpc1']
  have hexmem2 : t2.exmem.instr = noopWord := by
    rw [cycle_executes hh1 (by simp [hr1]) h2, hidex1]
  have hmemwb2 : t2.memwb.instr = noopWord := (cycle_accesses hh1 h2).trans hexmem1
  obtain ⟨hh2, hr2, t3, h3⟩ := cycle_answers_of_idle hexmem2 hmemwb2 (by omega) defaultParams
  have hpc3 : t3.pc.toNat ≤ s.pc.toNat + 3 := by
    cases hs2 : stall defaultParams t2 with
    | true =>
      obtain ⟨hpc3, _, _⟩ := cycle_stalls hh2 hs2 h3
      rw [hpc3]
      omega
    | false =>
      obtain ⟨_, hpc3, _, _⟩ := cycle_normal hh2 hr2 hs2 h3
      rw [hpc3, toNat_add_one (by omega)]
      omega
  refine ⟨t1, t2, t3, h1, h2, h3, by rw [hifid1], ?_, ?_, ⟨hh2, by simp [hr2], ?_, ?_⟩,
    hv1.of_idle hh1 h2 (by simp [hexmem2]), (cycle_accesses hh2 h3).trans hexmem2, hpc3⟩
  · rw [hidex2, decodeStage_instr, hifid1]
  · rw [hidex2, decodeStage_pcPlus1, hifid1]
    rfl
  · exact cycle_operandsCoherent rfl hh1 h2
  · rw [hidex2, decodeStage_offset, decodeStage_instr]

/-- Settles O56: the third step executes the word, so the state after it views what `exec` leaves. -/
theorem stepsRunTheInstructionAtPc : Obligations.StepsRunTheInstructionAtPc := by
  intro s u i hd hpc hdec hexec
  obtain ⟨t1, t2, t3, h1, h2, h3, hifid, hidex, hpcPlus1, hx, hv, _⟩ := three_steps_of_drained hd hpc
  have hu : execWord t2.idex.instr s = .next u := by rw [hidex, execWord_of_decode hdec, hexec]
  obtain ⟨hreg, hdata⟩ := hx.views h3 hv hu
  refine ⟨t1, t2, t3, h1, h2, h3, hifid, hidex, ?_, hreg, hdata, fun huh => ?_⟩
  · rw [cycle_executes hx.running hx.kept h3, hidex]
  · obtain ⟨_, _, ⟨_, hupc, _⟩ | ⟨h6, hmemwb⟩⟩ := execWord_next hu
    · rw [hupc, hx.orderPc h3 hv hpcPlus1.symm, hpcPlus1]
      rfl
    · rw [← hmemwb, ← halted_iff, huh] at h6
      cases h6

/-! ### A placed word (log 8) -/

/-- A cycle that answers leaves the registers with the instruction in MEMWB committed; a `halt` there
commits none (R81, R90). -/
theorem cycle_reg {p : Params} {s t : State} (h : cycle p s = .next t) :
    t.reg = regsAfter s.memwb.instr s.reg s.memwb.writeData := by
  rcases cycle_next h with ⟨hh, rfl⟩ | ⟨_, regs, m, f, hw, _, _, rfl⟩
  · have h6 := (halted_iff t).mp hh
    rw [regsAfter_of_none ((destOf_eq_none_iff _).mpr (by omega))]
  · rw [commit_reg, regsAfter_of_ok hw]

theorem withFetchWord_read (s : State) (w : Word) :
    (s.withFetchWord 32 w.toNat).instrMem.read (s.withFetchWord 32 w.toNat).pc.toNat = w := by
  rw [withFetchWord_fetched, Nat.mod_eq_of_lt w.isLt, BitVec.ofNat_toNat, BitVec.setWidth_eq]

/-- An executed word whose effect answers passes the memory stage too, and then MEMWB holds it. -/
theorem State.Executes.cycle_memory {p : Params} {s t o u : State} (hx : s.Executes p)
    (h : cycle p s = .next t) (hv : s.Views o) (hu : execWord s.idex.instr o = .next u)
    (ht : t.memwb.instr = noopWord) (hpc : t.pc.toNat ≤ 65535) :
    ∃ t', cycle p t = .next t' ∧ t'.memwb.instr = s.idex.instr ∧ t'.dataMem = u.dataMem ∧
      ∀ t'', cycle p t' = .next t'' → t''.reg = u.reg := by
  have hh : t.halted = false := halted_of_ne (by simp [ht])
  obtain ⟨⟨v, hmem, _⟩, _⟩ := execWord_next hu
  obtain ⟨regs, hregs⟩ := writebackStage_of_not_faults (s := t) (by simp [State.writebackFaults, ht])
  obtain ⟨f, hf⟩ := frontEnd_of_not_faults (p := p) (s := t) fun ⟨_, _, hgt⟩ => by omega
  have hstage : memoryStage t = .ok
      (⟨t.exmem.instr, v, t.exmem.hazA, t.exmem.hazB⟩, u.dataMem) := by
    rw [memoryStage, hx.memory h hv, hmem]
    rfl
  have h' := cycle_of_stages hh hregs hstage hf
  obtain ⟨_, hcommitted, _⟩ := cycle_older hh h'
  obtain ⟨hreg, _⟩ := hx.views h hv hu
  refine ⟨_, h', ?_, rfl, fun t'' h'' => ?_⟩
  · rw [cycle_accesses hh h', cycle_executes hx.running hx.kept h]
  · rw [cycle_reg h'', hcommitted, hreg]

/-- Settles O60: a placed word is fetched by a drained machine; the third step executes it, the fourth
does its access and the fifth commits it. -/
theorem placedWordRunsFromTheNextStep : Obligations.PlacedWordRunsFromTheNextStep := by
  refine ⟨fun s w => ?fetched, fun n w => rfl, fun s u w i hpc hdec hexec => ?run⟩
  case fetched =>
    have hlt : s.pc.toNat % memWords < memWords := Nat.mod_lt _ (by decide)
    obtain ⟨t, h, _, hifid, _⟩ := step_of_drained (withFetchWord_drained s 32 w.toNat)
      (by rw [withFetchWord_pc_toNat]; exact Nat.le_of_lt_succ hlt)
    exact ⟨t, h, by rw [hifid, withFetchWord_read]⟩
  case run =>
    have hpc0 : (s.withFetchWord 32 w.toNat).pc.toNat + 3 ≤ 65535 := by
      rw [withFetchWord_pc_toNat]; exact hpc
    obtain ⟨t1, t2, t3, h1, h2, h3, hifid, hidex, _, hx, hv, hmemwb, hpc3⟩ :=
      three_steps_of_drained (withFetchWord_drained s 32 w.toNat) (by omega)
    rw [withFetchWord_read] at hifid hidex
    have hu : execWord t2.idex.instr (s.withFetchWord 32 w.toNat) = .next u := by
      rw [hidex, execWord_of_decode hdec, hexec]
    obtain ⟨t4, h4, hmemwb4, hdata, hcommit⟩ := hx.cycle_memory h3 hv hu hmemwb (by omega)
    refine ⟨t1, t2, t3, t4, h1, h2, h3, h4, hifid, hidex, ?_, hmemwb4.trans hidex, hdata, hcommit⟩
    rw [cycle_executes hx.running hx.kept h3, hidex]

end Sys2Proof.Machine
end

section
/-!
PROOFS. The pipelined run against the program-order run (R96, R136, R138). A simulation: the run stands
where the oldest instruction not yet executed stands. A cycle that executes an instruction is one program
step, every other cycle is none, and the first `halt` that is executed ends both runs alike.
-/

namespace Sys2Proof.Machine

open Sys2Proof Sys2Proof.Config Sys2Proof.Laws

/-! ### Where the program stands (R82, R135, R138) -/

/-- The cycle of `s` executes an instruction of the program: IDEX holds one (a bubble has `pcPlus1` 0) and
it is not squashed. -/
def State.executesInstr (p : Params) (s : State) : Bool :=
  s.idex.pcPlus1 != 0#32 && !(redirect s && p.squashExecute)

/-- The address of the oldest instruction in the front end, the pc if both latches hold bubbles. -/
def State.frontPc (s : State) : Word :=
  if s.idex.pcPlus1 ≠ 0#32 then s.idex.pcPlus1 - 1
  else if s.ifid.pcPlus1 ≠ 0#32 then s.ifid.pcPlus1 - 1
  else s.pc

/-- The address and the waiting branch target of the program point at which `s` stands: behind a taken
branch the slot instruction in IDEX, or the target where there is none; else the front end's oldest. -/
def State.nextPoint (p : Params) (s : State) : Word × Option Word :=
  if redirect s then
    if s.executesInstr p then (s.idex.pcPlus1 - 1, some s.exmem.branchTarget)
    else (s.exmem.branchTarget, none)
  else (s.frontPc, none)

theorem executesInstr_iff {p : Params} {s : State} :
    s.executesInstr p = true ↔ s.idex.pcPlus1 ≠ 0#32 ∧ (redirect s && p.squashExecute) = false := by
  simp only [State.executesInstr, Bool.and_eq_true, bne_iff_ne, Bool.not_eq_true']

/-- An instruction in IDEX is followed in IFID by the next one, an instruction in IFID by the pc. -/
structure State.FrontContiguous (s : State) : Prop where
  fetched : s.ifid.pcPlus1 ≠ 0#32 → s.pc = s.ifid.pcPlus1
  decoded : s.idex.pcPlus1 ≠ 0#32 →
    s.ifid.pcPlus1 = s.idex.pcPlus1 + 1#32 ∧ s.idex.pcPlus1 + 1#32 ≠ 0#32

/-- The pc after a fetch inside the memory is no bubble's. -/
theorem add_one_ne_zero_of_lt {pc : Word} (h : pc.toNat < memWords) : pc + 1#32 ≠ 0#32 := by
  intro h0
  have hsucc : (0#32).toNat = pc.toNat + 1 := h0 ▸ toNat_add_one (Nat.le_of_lt_succ h)
  exact absurd hsucc (Nat.succ_ne_zero _).symm

theorem frontContiguous_of_empty {s : State} (hf : s.ifid = .empty) (hd : s.idex = .empty) :
    s.FrontContiguous :=
  ⟨fun h => absurd (by rw [hf]; rfl) h, fun h => absurd (by rw [hd]; rfl) h⟩

theorem State.FrontContiguous.next {p : Params} {s t : State} (hs : s.FrontContiguous)
    (hh : s.halted = false) (h : cycle p s = .next t) : t.FrontContiguous := by
  cases hr : redirect s with
  | true =>
    obtain ⟨_, hifid, hidex⟩ := cycle_redirects hh hr h
    exact frontContiguous_of_empty hifid hidex
  | false =>
    cases hst : stall p s with
    | true =>
      obtain ⟨hpc, hifid, hidex⟩ := cycle_stalls hh hst h
      refine ⟨?_, fun hne => absurd (by rw [hidex]; rfl) hne⟩
      rw [hpc, hifid]
      exact hs.fetched
    | false =>
      obtain ⟨hlt, hpc, hifid, hidex⟩ := cycle_normal hh hr hst h
      refine ⟨fun _ => by rw [hpc, hifid], fun hne => ?_⟩
      rw [hidex, decodeStage_pcPlus1] at hne ⊢
      rw [hifid, ← hs.fetched hne]
      exact ⟨rfl, add_one_ne_zero_of_lt hlt⟩

/-! ### Instructions and bubbles in the latches (R26, R82) -/

theorem idex_of_executes {s : State} (hs : s.fetchCoherent) (h : s.idex.pcPlus1 ≠ 0#32) :
    iFetch s.instrMem (s.idex.pcPlus1 - 1) = .ok s.idex.instr := by
  obtain ⟨_, ⟨_, h0⟩ | ⟨hin, hread⟩, _⟩ := hs
  · exact absurd h0 h
  · rw [iFetch, if_pos hin, hread]

theorem idex_of_bubble {s : State} (hs : s.fetchCoherent) (h : s.idex.pcPlus1 = 0#32) :
    s.idex.instr = noopWord := by
  obtain ⟨_, ⟨hnoop, _⟩ | ⟨hin, _⟩, _⟩ := hs
  · exact hnoop
  · have hout : inRange (0#32 - 1) = false := by decide
    rw [h, hout] at hin
    cases hin

/-- A cycle that executes no instruction leaves a bubble in EXMEM. -/
theorem exmem_of_bubble {p : Params} {s t : State} (hs : s.fetchCoherent) (hh : s.halted = false)
    (hx : s.executesInstr p = false) (h : cycle p s = .next t) : t.exmem.instr = noopWord := by
  rw [cycle_exmem hh h]
  cases hsq : redirect s && p.squashExecute with
  | true => rw [nextExMem_of_squashed hsq, emptyExMem_instr]
  | false =>
    rw [nextExMem_of_not_squashed hsq, executeStage_instr]
    refine idex_of_bubble hs ?_
    simpa [State.executesInstr, hsq] using hx

/-! ### The program point across a cycle (R135, R136, R138) -/

/-- A cycle that executes no instruction leaves the program where it stands. -/
theorem nextPoint_of_bubble {p : Params} {s t : State} (hs : s.fetchCoherent)
    (hh : s.halted = false) (hx : s.executesInstr p = false) (h : cycle p s = .next t) :
    t.nextPoint p = s.nextPoint p := by
  have hrt : redirect t = false := redirect_of_ne (by simp [exmem_of_bubble hs hh hx h])
  cases hr : redirect s with
  | true =>
    obtain ⟨hpc, hifid, hidex⟩ := cycle_redirects hh hr h
    simp [State.nextPoint, hrt, hr, hx, State.frontPc, hpc, hifid, hidex]
  | false =>
    have h0 : s.idex.pcPlus1 = 0#32 := by simpa [State.executesInstr, hr] using hx
    have hst : stall p s = false :=
      stall_of_loadUse_false (loadUse_of_not_load (by simp [idex_of_bubble hs h0]))
    obtain ⟨hlt, _, hifid, hidex⟩ := cycle_normal hh hr hst h
    simp [State.nextPoint, hrt, hr, State.frontPc, hifid, hidex, h0, add_one_ne_zero_of_lt hlt]

/-- Before a cycle that executes an instruction the program stands at it, as a slot in a redirect. -/
theorem nextPoint_of_executesInstr {p : Params} {s : State} (hx : s.executesInstr p = true) :
    s.nextPoint p =
      (s.idex.pcPlus1 - 1, if redirect s then some s.exmem.branchTarget else none) := by
  obtain ⟨hne, _⟩ := executesInstr_iff.mp hx
  cases hr : redirect s with
  | true => simp [State.nextPoint, hr, hx]
  | false => simp [State.nextPoint, hr, State.frontPc, hne]

/-- R138: the program point after an executed instruction, from whether it redirects next. -/
theorem nextPoint_after_executes {p : Params} {s t u : State} (hc : s.FrontContiguous)
    (hx : s.Executes p) (hi : s.executesInstr p = true) (h : cycle p s = .next t)
    (hu : u.pc = if redirect t then t.exmem.branchTarget else s.idex.pcPlus1) :
    let q := afterInstr p (s.nextPoint p).2 (redirect t) (s.nextPoint p).1 u
    (q.state.pc, q.slot) = t.nextPoint p := by
  obtain ⟨hne, hsq⟩ := executesInstr_iff.mp hi
  obtain ⟨hnext, hne'⟩ := hc.decoded hne
  rw [nextPoint_of_executesInstr hi]
  cases hr : redirect s with
  | true =>
    obtain ⟨hpc, hifid, hidex⟩ := cycle_redirects hx.running hr h
    cases hrt : redirect t <;>
      simp [afterInstr, State.nextPoint, State.executesInstr, State.frontPc, hrt, hu, hpc, hifid, hidex]
  | false =>
    cases hrt : redirect t with
    | true =>
      have hbeq : (opcode s.idex.instr).toNat = 4 := by
        rw [← cycle_executes hx.running hsq h]
        exact ((redirect_iff t).mp hrt).1
      have hst : stall p s = false :=
        stall_of_loadUse_false (loadUse_of_not_load (by omega))
      obtain ⟨_, _, _, hidex⟩ := cycle_normal hx.running hr hst h
      cases hsqp : p.squashExecute <;>
        simp [afterInstr, State.nextPoint, State.executesInstr, hrt, hu, hsqp, hidex, hne', hnext, nextPc]
    | false =>
      have hfront : t.frontPc = s.idex.pcPlus1 := by
        cases hst : stall p s with
        | true =>
          obtain ⟨_, hifid, hidex⟩ := cycle_stalls hx.running hst h
          simp [State.frontPc, hidex, hifid, hne', hnext]
        | false =>
          obtain ⟨_, _, _, hidex⟩ := cycle_normal hx.running hr hst h
          simp [State.frontPc, hidex, hne', hnext]
      simp [afterInstr, State.nextPoint, hrt, hu, hfront]

/-! ### The program-order machine (R96, R138) -/

/-- Program order never refuses a word. -/
theorem execWord_ne_refused (w : Word) (o : State) (r : Refusal) : execWord w o ≠ .refused r := by
  cases hdec : decode w with
  | ok i => rw [execWord_of_decode hdec]; exact (execFaultsExactlyHere i o).2 r
  | error e => simp [execWord, hdec, advance]

/-- The branch test of the program-order machine is that of the branch unit (R87). -/
theorem branchTakenIn_eq (w : Word) (o : State) : branchTakenIn w o = (orderBranch o w).1 := by
  rcases decode_cases w with ⟨ho, e⟩ | ⟨ho, e⟩ | ⟨ho, e⟩ | ⟨ho, e⟩ | ⟨ho, e⟩ |
      ⟨ho, e⟩ | ⟨ho, e⟩ | ⟨ho, e⟩ | ⟨ho, e⟩
  case inr.inr.inr.inr.inl => simp [branchTakenIn, e, orderBranch, branchUnit_of_beq ho, branchEqual]
  all_goals simp [branchTakenIn, e, orderBranch, branchUnit_of_ne (w := w) (by omega)]

/-- Where the program goes after an instruction is a matter of the pc and the slot only. -/
theorem afterInstr_state (p : Params) (slot : Option Word) (taken : Bool) (pc : Word) (u : State) :
    (afterInstr p slot taken pc u).state =
      { u with pc := (afterInstr p slot taken pc u).state.pc } := by
  unfold afterInstr
  split <;> split <;> rfl

theorem programStep_of_next {p : Params} {q : ProgramPoint} {w : Word} {u : State}
    (hh : q.state.halted = false) (hw : iFetch q.state.instrMem q.state.pc = .ok w)
    (hu : execWord w q.state = .next u) :
    programStep p q = .next (afterInstr p q.slot (branchTakenIn w q.state) q.state.pc u) := by
  simp [programStep, hh, hw, hu]

theorem programRun_succ {p : Params} {q q' : ProgramPoint} (h : programStep p q = .next q') (n : Nat) :
    programRun p (n + 1) q = programRun p n q' := by
  simp [programRun, h]

/-! ### The simulation (R96) -/

/-- What every state of a run from a drained state satisfies until a `halt` has been executed. -/
structure State.Flowing (s : State) : Prop where
  running    : s.halted = false
  noHalt     : (opcode s.exmem.instr).toNat ≠ 6
  fetched    : s.fetchCoherent
  contiguous : s.FrontContiguous
  operands   : s.operandsCoherent

/-- The pipelined state `s` and the program point `q` stand at the same instruction, with the same
registers and data memory before it. -/
structure Simulates (p : Params) (s : State) (q : ProgramPoint) : Prop where
  flowing  : s.Flowing
  running  : q.state.halted = false
  instrMem : q.state.instrMem = s.instrMem
  views    : s.Views q.state
  point    : (q.state.pc, q.slot) = s.nextPoint p

theorem State.Flowing.next {p : Params} {s t : State} (hp : p.lwlwFarDrop = false) (hs : s.Flowing)
    (h : cycle p s = .next t) (ht : (opcode t.exmem.instr).toNat ≠ 6) : t.Flowing where
  running := halted_of_ne (by rw [cycle_accesses hs.running h]; exact hs.noHalt)
  noHalt := ht
  fetched := latchedWordsComeFromInstructionMemory.2 p s t hs.fetched h
  contiguous := hs.contiguous.next hs.running h
  operands := cycle_operandsCoherent hp hs.running h

theorem State.Flowing.executes {p : Params} {s : State} (hs : s.Flowing)
    (hx : s.executesInstr p = true) : s.Executes p where
  running := hs.running
  kept := (executesInstr_iff.mp hx).2
  operands := hs.operands
  offset := by
    obtain ⟨_, _, hoffset⟩ := hs.fetched
    exact hoffset

/-- A state with nothing in flight stands at the instruction at its pc. -/
theorem simulates_of_drained {s : State} (hd : s.drained) (p : Params) :
    Simulates p s { state := s, slot := none } := by
  obtain ⟨hf, hi, hx, hm⟩ := hd
  have hexmem : s.exmem.instr = noopWord := by rw [hx, emptyExMem_instr]
  have hmemwb : s.memwb.instr = noopWord := by rw [hm, emptyMemWb_instr]
  have hh : s.halted = false := halted_of_ne (by simp [hmemwb])
  have hr : redirect s = false := redirect_of_ne (by simp [hexmem])
  refine ⟨⟨hh, by simp [hexmem], ?_, frontContiguous_of_empty hf hi, operandsCoherent_of_empty hi⟩,
    hh, rfl, views_self_of_idle hexmem hmemwb, ?_⟩
  · rw [State.fetchCoherent, hf, hi]
    exact ⟨.inl ⟨rfl, rfl⟩, .inl ⟨rfl, rfl⟩, by decide⟩
  · simp [State.nextPoint, State.frontPc, hr, hf, hi]

/-- A cycle that executes no instruction is no step of the program. -/
theorem Simulates.of_bubble {p : Params} {s t : State} {q : ProgramPoint}
    (hp : p.lwlwFarDrop = false) (hs : Simulates p s q) (hx : s.executesInstr p = false)
    (h : cycle p s = .next t) : Simulates p t q := by
  have hh := hs.flowing.running
  have hexmem := exmem_of_bubble hs.flowing.fetched hh hx h
  exact ⟨hs.flowing.next hp h (by simp [hexmem]), hs.running,
    hs.instrMem.trans (cycle_sameProgram h).1.symm, hs.views.of_idle hh h (by simp [hexmem]),
    hs.point.trans (nextPoint_of_bubble hs.flowing.fetched hh hx h).symm⟩

section Executed
variable {p : Params} {s t u : State} {q : ProgramPoint}

/-- The program fetches the instruction in IDEX. -/
theorem Simulates.fetch (hs : Simulates p s q) (hx : s.executesInstr p = true) :
    iFetch q.state.instrMem q.state.pc = .ok s.idex.instr := by
  have hpc : q.state.pc = (s.nextPoint p).1 := congrArg Prod.fst hs.point
  rw [hs.instrMem, hpc, nextPoint_of_executesInstr hx]
  exact idex_of_executes hs.flowing.fetched (executesInstr_iff.mp hx).1

theorem Simulates.nextPc (hs : Simulates p s q) (hx : s.executesInstr p = true) :
    nextPc q.state.pc = s.idex.pcPlus1 := by
  have hpc : q.state.pc = (s.nextPoint p).1 := congrArg Prod.fst hs.point
  rw [hpc, nextPoint_of_executesInstr hx]
  simp [Machine.nextPc]

/-- The program takes a branch exactly when the pipeline will redirect. -/
theorem Simulates.taken (hs : Simulates p s q) (hx : s.executesInstr p = true)
    (h : cycle p s = .next t) : branchTakenIn s.idex.instr q.state = redirect t := by
  have hxs := hs.flowing.executes hx
  have hbranch := congrArg Prod.fst (hxs.branch h hs.views (hs.nextPc hx))
  have hinstr : t.exmem.instr = s.idex.instr := by rw [hxs.exmem h, executeStage_instr]
  rw [branchTakenIn_eq, ← hbranch, Bool.eq_iff_iff, redirect_iff, hinstr]
  refine ⟨fun htaken => ⟨?_, htaken⟩, And.right⟩
  by_contra hne
  simp [hxs.exmem h, branchUnit_of_ne hne] at htaken

/-- A cycle that executes an instruction other than `halt` is one step of the program. -/
theorem Simulates.of_executes (hp : p.lwlwFarDrop = false) (hs : Simulates p s q)
    (hx : s.executesInstr p = true) (h : cycle p s = .next t)
    (hu : execWord s.idex.instr q.state = .next u) (h6 : (opcode s.idex.instr).toNat ≠ 6) :
    Simulates p t
      (afterInstr p q.slot (branchTakenIn s.idex.instr q.state) q.state.pc u) := by
  have hxs := hs.flowing.executes hx
  have hinstr : t.exmem.instr = s.idex.instr := by rw [hxs.exmem h, executeStage_instr]
  obtain ⟨_, himem, ⟨_, hpc, hmemwb⟩ | ⟨h6', _⟩⟩ := execWord_next hu
  case inr => exact absurd h6' h6
  obtain ⟨hreg, hdata⟩ := hxs.views h hs.views hu
  have hqpc : q.state.pc = (s.nextPoint p).1 := congrArg Prod.fst hs.point
  have hqslot : q.slot = (s.nextPoint p).2 := congrArg Prod.snd hs.point
  have htaken : t.exmem.branchTaken = redirect t := by
    rw [← hs.taken hx h, branchTakenIn_eq, ← hxs.branch h hs.views (hs.nextPc hx)]
  have hupc : u.pc = if redirect t then t.exmem.branchTarget else s.idex.pcPlus1 := by
    rw [hpc, hxs.orderPc h hs.views (hs.nextPc hx), htaken]
  refine ⟨hs.flowing.next hp h (hinstr ▸ h6), ?_, ?_, ⟨?_, ?_⟩, ?_⟩
  · rw [afterInstr_state, withPc_halted, State.halted, hmemwb]
    exact hs.running
  · rw [afterInstr_state, withPc_instrMem, himem, hs.instrMem, (cycle_sameProgram h).1]
  · rw [afterInstr_state, withPc_reg, hreg]
  · rw [afterInstr_state, withPc_dataMem, hdata]
  · rw [hs.taken hx h, hqpc, hqslot]
    exact nextPoint_after_executes hs.flowing.contiguous hxs hx h hupc

end Executed

/-! ### Where the runs end (R72, R81, R103) -/

/-- A run into a faulting cycle does not end halted. -/
theorem not_halted_of_run_to_fault {p : Params} {k : Nat} {s t : State} {f : Fault}
    (hf : cycle p s = .fault f) (hrun : runCycles p k s = .next t) : t.halted = false := by
  cases k with
  | zero => cases hrun; exact (cycle_fault hf).1
  | succ k =>
    obtain ⟨u, hu, _⟩ := runCycles_succ_next hrun
    simp [hf] at hu

/-- After the cycle that executes a faulting instruction no run ends halted. -/
theorem State.Executes.not_halted {p : Params} {k : Nat} {s t t' o : State} {f : Fault}
    (hx : s.Executes p) (h : cycle p s = .next t) (hv : s.Views o)
    (hf : execWord s.idex.instr o = .fault f) (ht : t.halted = false)
    (hrun : runCycles p k t = .next t') : t'.halted = false := by
  by_cases hw : t.writebackFaults
  · obtain ⟨ho, hd⟩ := hw
    exact not_halted_of_run_to_fault (cycle_of_reserved_dest ht (destOf_of_le_one ho) hd p) hrun
  · rcases hx.fault h hv hf ht hw with ⟨_, hfault⟩ | ⟨_, hfetch | ⟨u, hu, hfault⟩⟩
    · exact not_halted_of_run_to_fault hfault hrun
    · exact not_halted_of_run_to_fault hfetch hrun
    · cases k with
      | zero => cases hrun; exact ht
      | succ k =>
        obtain ⟨u', hu', hrun'⟩ := runCycles_succ_next hrun
        rw [hu] at hu'
        cases hu'
        exact not_halted_of_run_to_fault hfault hrun'

/-- A run from a state with a `halt` in EXMEM that ends halted ends in the next cycle, with what program
order sees before the `halt`. -/
theorem run_of_halt_in_exmem {p : Params} {k : Nat} {t t' : State} (ht : t.halted = false)
    (h6 : (opcode t.exmem.instr).toNat = 6) (hrun : runCycles p k t = .next t')
    (ht' : t'.halted = true) : t'.reg = t.older.reg ∧ t'.dataMem = t.older.dataMem := by
  cases k with
  | zero => cases hrun; simp [ht] at ht'
  | succ k =>
    obtain ⟨u, hu, hrun'⟩ := runCycles_succ_next hrun
    have huh : u.halted = true := by rw [halted_iff, cycle_accesses ht hu, h6]
    rw [runCycles_of_halted huh] at hrun'
    cases hrun'
    have hdest : destOf t.exmem.instr = none := (destOf_eq_none_iff _).mpr (by omega)
    refine ⟨?_, (cycle_older ht hu).1⟩
    rw [cycle_reg hu, older_reg, regsAfter_of_none hdest]

/-- An executed `halt` ends both runs, with the same registers and data memory. -/
theorem Simulates.of_halt {p : Params} {k : Nat} {s t t' u : State} {q : ProgramPoint}
    (hs : Simulates p s q) (hx : s.executesInstr p = true) (h : cycle p s = .next t)
    (hu : execWord s.idex.instr q.state = .next u) (h6 : (opcode s.idex.instr).toNat = 6)
    (hrun : runCycles p k t = .next t') (ht' : t'.halted = true) (slot : Option Word) (taken : Bool)
    (pc : Word) :
    let r := (afterInstr p slot taken pc u).state
    r.halted = true ∧ r.reg = t'.reg ∧ r.dataMem = t'.dataMem := by
  have hxs := hs.flowing.executes hx
  have hinstr : t.exmem.instr = s.idex.instr := by rw [hxs.exmem h, executeStage_instr]
  have ht : t.halted = false :=
    halted_of_ne (by rw [cycle_accesses hxs.running h]; exact hs.flowing.noHalt)
  obtain ⟨_, _, ⟨h6', _⟩ | ⟨_, hmemwb⟩⟩ := execWord_next hu
  case inl => exact absurd h6 h6'
  obtain ⟨hreg, hdata⟩ := hxs.views h hs.views hu
  obtain ⟨hreg', hdata'⟩ := run_of_halt_in_exmem ht (hinstr ▸ h6) hrun ht'
  rw [afterInstr_state]
  refine ⟨?_, (hreg'.trans hreg).symm, (hdata'.trans hdata).symm⟩
  rw [withPc_halted, halted_iff, hmemwb, h6]

/-- A run that ends halted is matched from every program point it simulates: each executed instruction
is one program step, up to the first executed `halt`. -/
theorem Simulates.run {p : Params} (hp : p.lwlwFarDrop = false) {k : Nat} {s t : State}
    {q : ProgramPoint} (hs : Simulates p s q) (hrun : runCycles p k s = .next t)
    (ht : t.halted = true) :
    ∃ n r, programRun p n q = .next r ∧ r.state.halted = true ∧ r.state.reg = t.reg ∧
      r.state.dataMem = t.dataMem := by
  induction k generalizing s q with
  | zero =>
    cases hrun
    simp [hs.flowing.running] at ht
  | succ k ih =>
    obtain ⟨s', h, hrun'⟩ := runCycles_succ_next hrun
    cases hx : s.executesInstr p with
    | false => exact ih (hs.of_bubble hp hx h) hrun'
    | true =>
      have hxs := hs.flowing.executes hx
      cases hu : execWord s.idex.instr q.state with
      | refused r => exact absurd hu (execWord_ne_refused _ _ r)
      | fault f =>
        have hs' : s'.halted = false :=
          halted_of_ne (by rw [cycle_accesses hxs.running h]; exact hs.flowing.noHalt)
        simp [hxs.not_halted h hs.views hu hs' hrun'] at ht
      | next u =>
        have hstep := programStep_of_next (p := p) hs.running (hs.fetch hx) hu
        by_cases h6 : (opcode s.idex.instr).toNat = 6
        · exact ⟨1, _, programRun_succ hstep 0, hs.of_halt hx h hu h6 hrun' ht _ _ _⟩
        · obtain ⟨n, r, hr, hend⟩ := ih (hs.of_executes hp hx h hu h6) hrun'
          exact ⟨n + 1, r, (programRun_succ hstep n).trans hr, hend⟩

/-- Settles O59: a drained state stands at the instruction at its pc, and the simulation runs on. -/
theorem haltedRunMatchesProgramOrder : Obligations.HaltedRunMatchesProgramOrder :=
  fun p _ _ _ hp hd hrun ht => (simulates_of_drained hd p).run hp hrun ht

end Sys2Proof.Machine
end

section
/-!
PROOFS. Hazards, stall and redirect (R126 to R137): the operands a word needs, the answer of the scan for
the nearest producer, the load-use condition, and what stall and redirect cycles do.
-/

namespace Sys2Proof.Machine

open Sys2Proof Sys2Proof.Config Sys2Proof.Laws

/-! ### The needed operands and the scan (R126 to R128) -/

theorem descriptorA_of_needed {w : Word} (h : needsA w = true) (p : Params) (s : State) :
    descriptorA p s w = descriptorOf (scan p s (fieldA w) w) :=
  if_pos h

theorem descriptorB_of_needed {w : Word} (h : needsB w = true) (p : Params) (s : State) :
    descriptorB p s w = descriptorOf (scan p s (fieldB w) w) :=
  if_pos h

/-- Settles O37: the table of needed operands, and a descriptor for each of them. -/
theorem neededOperands : Obligations.NeededOperands := by
  refine fun w => ⟨needsA_iff w, needsB_iff w, fun p s => ⟨fun hA => descriptorA_of_needed hA p s,
    fun hB => descriptorB_of_needed hB p s, fun hA => descriptorA_of_not_needed hA p s,
    fun hB => descriptorB_of_not_needed hB p s, ?_⟩⟩
  rintro rfl hA hB
  exact stall_of_loadUse_false (loadUse_of_not_needed hA hB)

/-- Settles O38: the answer of a scan at each position of the nearest producer. -/
theorem nearestProducerWins : Obligations.NearestProducerWins := by
  intro p s r w
  dsimp only
  rw [scan_eq]
  refine ⟨fun hx ho => ?alu, fun hx ho => ?load, fun hx hm => ?mem, fun hx hm hb => ?wb,
    fun hx hm hb => ?nothing⟩
  case alu => rw [if_pos hx, if_neg (by omega)]
  case load => rw [if_pos hx, if_pos ho]
  case mem => rw [if_neg hx, if_pos hm]
  case wb => simp only [if_neg hx, if_neg hm, if_pos hb, isLoad_iff]
  case nothing => rw [if_neg hx, if_neg hm, if_neg hb]

/-! ### Load-use and stall (R131) -/

/-- R128, R131: a scan answers load-use for the register that a load in IDEX is to write. -/
theorem scan_eq_loadUse_iff (p : Params) (s : State) (r : RegNum) (w : Word) :
    scan p s r w = .loadUse ↔ (opcode s.idex.instr).toNat = 2 ∧ fieldB s.idex.instr = r := by
  constructor
  · intro h
    obtain ⟨ho, hd⟩ := scan_loadUse h
    rw [destOf_of_eq_two ho, Option.some_inj, regIndex_inj] at hd
    exact ⟨ho, hd⟩
  · rintro ⟨ho, rfl⟩
    obtain ⟨_, hload, _⟩ := nearestProducerWins p s (fieldB s.idex.instr) w
    exact hload (destOf_of_eq_two ho) ho

theorem loadUse_iff (p : Params) (s : State) :
    loadUse p s = true ↔
      (needsA s.ifid.instr = true ∧ scan p s (fieldA s.ifid.instr) s.ifid.instr = .loadUse) ∨
      (needsB s.ifid.instr = true ∧ scan p s (fieldB s.ifid.instr) s.ifid.instr = .loadUse) := by
  simp [loadUse]

/-- R131, R137: a stall is a load-use without a redirect. -/
theorem stall_iff (p : Params) (s : State) :
    stall p s = true ↔ loadUse p s = true ∧ redirect s = false := by
  simp [stall]

/-- Settles O39: both scans ask for the same load, each for its own register. -/
theorem stallOnlyOnLoadUse : Obligations.StallOnlyOnLoadUse := by
  refine fun p s => ⟨?_, stall_iff p s⟩
  rw [loadUse_iff, scan_eq_loadUse_iff, scan_eq_loadUse_iff]
  tauto

theorem redirect_of_stall {p : Params} {s : State} (hs : stall p s = true) : redirect s = false :=
  ((stall_iff p s).mp hs).2

theorem load_of_stall {p : Params} {s : State} (hs : stall p s = true) :
    (opcode s.idex.instr).toNat = 2 := by
  obtain ⟨hcond, _⟩ := stallOnlyOnLoadUse p s
  obtain ⟨hlu, _⟩ := (stall_iff p s).mp hs
  obtain ⟨hload, _⟩ := hcond.mp hlu
  exact hload

/-! ### What a descriptor selects (R85) -/

theorem operand_mem (s : State) (v : Word) : operand s ⟨true, .mem⟩ v = s.memwb.writeData := rfl

theorem operand_wb (s : State) (v : Word) : operand s ⟨true, .wb⟩ v = s.wbend.writeData := rfl

theorem operand_clear (s : State) (v : Word) : operand s .clear v = v := rfl

/-! ### The stages behind the front end (R88, R90, R92) -/

/-- Whatever the front end does, a performed cycle commits what memory and writeback answer. -/
theorem cycle_commits {p : Params} {s t : State} (hh : s.halted = false) (h : cycle p s = .next t) :
    memoryStage s = .ok (t.memwb, t.dataMem) ∧ writebackStage s = .ok t.reg ∧
      t.wbend = nextWbEnd s := by
  obtain ⟨regs, m, f, hw, hm, _, rfl⟩ := cycle_performed hh h
  exact ⟨hm, hw, rfl⟩

/-- Without a redirect EXMEM takes the execute result (R86, R89). -/
theorem cycle_exmem_of_not_redirect {p : Params} {s t : State} (hh : s.halted = false)
    (hr : redirect s = false) (h : cycle p s = .next t) : t.exmem = executeStage s := by
  rw [cycle_exmem hh h, nextExMem_of_not_squashed (by simp [hr])]

/-! ### The stall cycle and the one after it (R132, R133) -/

/-- Settles O40: the front end of a stall cycle, with the load moved on by execute. -/
theorem stallCycleAction : Obligations.StallCycleAction := by
  intro p s t hh hs h
  obtain ⟨hpc, hifid, hidex⟩ := cycle_stalls hh hs h
  obtain ⟨hmem, hwb, hwbend⟩ := cycle_commits hh h
  have hx : t.exmem = executeStage s := cycle_exmem_of_not_redirect hh (redirect_of_stall hs) h
  have hinstr : t.exmem.instr = s.idex.instr := by rw [hx, executeStage_instr]
  exact ⟨hidex, hpc, hifid, hx, hinstr, hinstr ▸ load_of_stall hs, hmem, hwb, hwbend,
    cycle_counts hh h, cycle_withInstrMem hh (.inr hs) h⟩

/-- R88: a load in EXMEM leaves the word at its address in MEMWB. -/
theorem cycle_loads {p : Params} {s t : State} (hh : s.halted = false) (h : cycle p s = .next t)
    (ho : (opcode s.exmem.instr).toNat = 2) :
    t.memwb.writeData = s.dataMem.read s.exmem.aluResult.toNat := by
  obtain ⟨hmem, _, _⟩ := cycle_commits hh h
  obtain ⟨haccess, _⟩ := memoryStage_ok hmem
  rcases memoryOf_ok haccess with ⟨ho', _⟩ | ⟨_, _, heq⟩ | ⟨ho', _⟩ | ⟨ho', _⟩
  case inr.inl => exact congrArg Prod.fst heq
  all_goals omega

/-- R128: behind a bubble the load in EXMEM is the nearest producer of its register. -/
theorem scan_behind_bubble {s : State} (hidex : s.idex = .empty)
    (ho : (opcode s.exmem.instr).toNat = 2) (p : Params) (w : Word) :
    scan p s (fieldB s.exmem.instr) w = .forward .mem := by
  obtain ⟨_, _, hmem, _⟩ := nearestProducerWins p s (fieldB s.exmem.instr) w
  exact hmem (by simp [hidex]) (destOf_of_eq_two ho)

/-- Settles O41: behind the bubble of the stall cycle no load stands in IDEX any more, and the scan of the
held consumer finds the load in EXMEM. -/
theorem stallLastsOneCycle : Obligations.StallLastsOneCycle := by
  intro p s t u hh ht hs h hu
  obtain ⟨hbubble, _, hifid, _, hx, hload, _⟩ := stallCycleAction p s t hh hs h
  have hlu : loadUse p t = false := loadUse_of_not_load (by simp [hbubble])
  have hnostall : stall p t = false := stall_of_loadUse_false hlu
  obtain ⟨_, _, _, hidex⟩ := cycle_normal ht (redirect_of_ne (by omega)) hnostall hu
  have hscan : ∀ w, scan p t (fieldB s.idex.instr) w = .forward .mem :=
    fun w => hx ▸ scan_behind_bubble hbubble hload p w
  refine ⟨hnostall, hlu, by rw [hidex, decodeStage_instr, hifid], (cycle_accesses ht hu).trans hx,
    cycle_loads ht hu hload, fun hn hf => ?operandA, fun hn hf => ?operandB⟩
  case operandA =>
    have hhaz : u.idex.hazA = ⟨true, .mem⟩ := by
      rw [hidex, decodeStage_hazA, hifid, descriptorA_of_needed hn, hf, hscan, descriptorOf]
    exact ⟨hhaz, by rw [operandA, hhaz, operand_mem]⟩
  case operandB =>
    have hhaz : u.idex.hazB = ⟨true, .mem⟩ := by
      rw [hidex, decodeStage_hazB, hifid, descriptorB_of_needed hn, hf, hscan, descriptorOf]
    exact ⟨hhaz, by rw [operandB, hhaz, operand_mem]⟩

/-! ### The redirect cycle (R134, R135, R137) -/

/-- R88: a word in EXMEM with an opcode above those of load and store leaves the data memory. -/
theorem cycle_dataMem_of_gt {p : Params} {s t : State} (hh : s.halted = false)
    (h : cycle p s = .next t) (ho : 3 < (opcode s.exmem.instr).toNat) : t.dataMem = s.dataMem := by
  obtain ⟨hmem, _, _⟩ := cycle_commits hh h
  obtain ⟨haccess, _⟩ := memoryStage_ok hmem
  rw [memoryOf_of_gt ho, Except.ok.injEq] at haccess
  exact (congrArg Prod.snd haccess).symm

/-- Settles O42: the front end of a redirect cycle; the next cycle fetches at the pc it leaves. -/
theorem redirectAction : Obligations.RedirectAction := by
  refine fun p s => ⟨redirect_iff s, fun hh hr t h => ?_⟩
  obtain ⟨hbranch, _⟩ := (redirect_iff s).mp hr
  obtain ⟨hpc, hifid, hidex⟩ := cycle_redirects hh hr h
  obtain ⟨hmem, hwb, hwbend⟩ := cycle_commits hh h
  refine ⟨hpc, hifid, hidex, cycle_accesses hh h, cycle_dataMem_of_gt hh h (by omega), hmem, hwb,
    hwbend, cycle_counts hh h, cycle_withInstrMem hh (.inl hr) h, fun u ht hrt hu => ?_⟩
  have hnostall : stall p t = false := stall_of_opcode_gt_four (by simp [hifid]) p
  rw [cycle_fetches ht hrt hnostall hu, hpc]

/-- Settles O43: a stall is without a redirect, so the cycle is a redirect cycle. -/
theorem redirectBeatsStall : Obligations.RedirectBeatsStall :=
  fun _ _ hh hr _ => ⟨by simp [stall, hr], fun _ h => cycle_redirects hh hr h⟩

/-! ### A load far behind the load of its base (R129) -/

/-- Settles O54: the scan of the base reaches MEMWB, where `LWLW_FAR_DROP` decides; the loaded word is in
WBEND in the next cycle. -/
theorem farLoadToLoadForwarding : Obligations.FarLoadToLoadForwarding := by
  intro p s t hh hr hs h hload hbase hreg hx hm
  obtain ⟨_, _, _, hidex⟩ := cycle_normal hh hr hs h
  obtain ⟨_, _, hwbend⟩ := cycle_commits hh h
  obtain ⟨_, _, _, hscan, _⟩ := nearestProducerWins p s (fieldA s.ifid.instr) s.ifid.instr
  have hfar := hscan hx hm (hreg ▸ destOf_of_eq_two hbase)
  have hhaz : t.idex.hazA = descriptorOf (scan p s (fieldA s.ifid.instr) s.ifid.instr) := by
    rw [hidex, decodeStage_hazA, descriptorA_of_needed ((needsA_iff _).mpr (by omega))]
  constructor
  · intro hkeep
    rw [hfar, if_neg (by simp [hkeep]), descriptorOf] at hhaz
    exact ⟨hhaz, by rw [operandA, hhaz, operand_wb, hwbend, nextWbEnd_writeData]⟩
  · intro hdrop
    rw [hfar, if_pos ⟨hbase, hload, hdrop⟩, descriptorOf] at hhaz
    exact ⟨hhaz, by rw [operandA, hhaz, operand_clear, hidex, decodeStage_readRegA]⟩

end Sys2Proof.Machine
end

section
/-!
PROOFS. The worked encodings (30_encoding.md section 6): a word that is written out for an instruction
is its encoded word, and a word whose opcode field is above 7 is rejected with that field.
-/

namespace Sys2Proof.Machine

open Sys2Proof Sys2Proof.Config Sys2Proof.Laws

/-- R59, R52: a word written out as the encoding of an instruction decodes to it. -/
theorem decode_of_encode_eq {w : Word} {i : Instr} (h : encode i = w) : decode w = .ok i :=
  h ▸ decodeOfEncodeIsInstruction i

/-- R47, R55: a word with the opcode field `op` above 7 is rejected with `op`. -/
theorem decode_of_opcode_gt_seven {w : Word} {op : BitVec 10} (ho : opcode w = op)
    (hop : 7 < op.toNat) : decode w = .error (.unrecognisedOpcode op) := by
  subst ho
  obtain ⟨_, _, _, _, hrejected, _⟩ := opcodeFieldDecidesRecognition w
  exact hrejected hop

/-- Settles O7: each of the eight words is packed from the fields of its instruction; the opcode fields
of the last two are 8 and 1023. -/
theorem workedEncodingsDecode : Obligations.WorkedEncodingsDecode := by
  refine ⟨?add, ?nor, ?lw, ?sw, ?beq, ?jalr, ?halt, ?noop, ?bit25, ?allOnes⟩
  case bit25 => exact decode_of_opcode_gt_seven (by decide) (by decide)
  case allOnes => exact decode_of_opcode_gt_seven (by decide) (by decide)
  all_goals exact decode_of_encode_eq (by decide)

end Sys2Proof.Machine
end
